-- ==== Sys2Proof/Word.lean ====
section
/-! DEFINITION. The byte, the only fixed-width word of this hardware: a memory cell and an instruction byte (R8, R114). -/

namespace Sys2Proof

/-- One byte: the contents of a memory cell, or one byte `Bk` of an instruction (R8, R11). -/
abbrev Byte := BitVec 8

end Sys2Proof
end

