-- ==== Sys2Proof/Machine/Errors.lean ====
section
/-! DEFINITION. The errors of the executor, the dump and the unpacker, with what each records (R601 to R608). -/

namespace Sys2Proof

/-- An error and the information it records: the kind and info of an error record (R109, R601). -/
inductive Error where
  /-- The fetched first byte's tag is 0, 4, 5 or 6; it records that byte (R602). -/
  | unknownOpcode (b1 : Byte)
  /-- A pop from an empty stack (R603). -/
  | stackUnderflow
  /-- A memory address, or a dump bound, outside 0..65535; it records that address (R604).
  An integer, because a dump bound may be negative (R467). -/
  | outOfBounds (a : Int)
  /-- A square root of a negative value; it records the value (R605). -/
  | domainError (v : Int)
  /-- A write of a value above 255 into a byte cell; it records the value (R606). -/
  | cellOverflow (v : Nat)
  /-- A push beyond STACK_DEPTH (R607). -/
  | stackOverflow
  /-- Standalone unpack past the end of a finite byte sequence; it records the offset (R608). -/
  | truncated (j : Nat)
  deriving DecidableEq, Repr

/-- The numeric code of an error's kind (R601). -/
def Error.code : Error → Nat
  | .unknownOpcode _ => 1
  | .stackUnderflow  => 2
  | .outOfBounds _   => 3
  | .domainError _   => 4
  | .cellOverflow _  => 5
  | .stackOverflow   => 6
  | .truncated _     => 7

/-- The error record kept by an error halt: the error (kind and info) and `at`, the value of ip when the
failing step began (R109). -/
structure ErrorRecord where
  error : Error
  loc   : Nat
  deriving DecidableEq, Repr

end Sys2Proof
end

