-- ==== Sys2Proof/Config.lean ====
section
/-! DEFINITION. The fixed parameters of the hardware (R8) and the configuration a launch fixes (R9, R120). -/

namespace Sys2Proof

/-- `MEM_SIZE`: the number of memory cells, addresses 0..65535 (R8, R114). -/
def memSize : Nat := 65536

/-- The configuration of a run, which no step changes (R9, R120).
The third launch input, `fill`, is an argument of the launch and leaves no trace but the cells it fills (R702). -/
structure Config where
  /-- `STACK_DEPTH`: the stack capacity, or `none` for an unbounded stack (R111, R607). -/
  stackDepth : Option Nat
  /-- Whether each step emits an observational trace line (R470). -/
  verbose    : Bool
  deriving DecidableEq, Repr

/-- The reference configuration: an unbounded stack, the spec's default (R9), and no trace (DESIGN CHOICE, log 4). -/
def Config.reference : Config := { stackDepth := none, verbose := false }

end Sys2Proof
end

