-- ==== Sys2Proof/Syntax.lean ====
section
/-! DEFINITION. The instructions, one constructor per row of spec/opcode_table.json (R2, R17, R315). -/

namespace Sys2Proof

/-- The logical instruction: a tagged variant over four operand shapes (R17).
Operands are unbounded natural numbers, so that the packer's wrap cases can be written (R401). -/
inductive Instr where
  /-- LOAD: push the constant (R501). -/
  | load (const : Nat)
  /-- READ: replace the popped base by the cell at base + offset (R504). -/
  | read (offset : Nat)
  /-- STORE: pop a value into the cell at the absolute address (R507). -/
  | store (addr : Nat)
  /-- SQRT: write the integer square root of the cell at popped base + offset to the absolute address (R510). -/
  | sqrt (addr offset : Nat)
  deriving DecidableEq, Repr

end Sys2Proof
end

