-- ==== Sys2Proof/WellFormed.lean ====
section
/-! DEFINITION. Which operands an instruction's encoding can carry: the decoder's field widths and the effective widths (R310). -/

namespace Sys2Proof

/-- Every operand fits the field the decoder reads for it: the third column of R310 (R307, R308, R309, R311).
Exactly these instructions come out of the decoder. -/
def Instr.wellFormed : Instr → Bool
  | .load const       => decide (const < 2 ^ 21)
  | .read offset      => decide (offset < 2 ^ 5)
  | .store addr       => decide (addr < 2 ^ 21)
  | .sqrt addr offset => decide (addr < 2 ^ 29) && decide (offset < 2 ^ 8)

/-- Every operand is below its effective width, the last column of R310: exactly these instructions survive
pack followed by unpack unchanged (R321). -/
def Instr.packable : Instr → Bool
  | .load const       => decide (const < 2 ^ 21)
  | .read offset      => decide (offset < 2 ^ 5)
  | .store addr       => decide (addr < 2 ^ 21)
  | .sqrt addr offset => decide (addr < 2 ^ 25) && decide (offset < 2 ^ 8)

end Sys2Proof
end

