-- ==== Sys2Proof/Decode.lean ====
section
/-! DEFINITION. The decoder (unpack), the field encoder (encode) and the packer (pack): spec/30_encoding.md and
spec/40_codec.md. The shift and mask arithmetic is the spec's own, which it declares authoritative (C1 to C8). -/

namespace Sys2Proof

/-- The tag: the top three bits of the first byte (R302). -/
def tagOf (b1 : Byte) : Nat := b1.toNat >>> 5

/-- The length in bytes that a tag selects, or none for an unknown tag (R318). -/
def lengthOfTag : Nat → Option Nat
  | 1 => some 5
  | 2 => some 1
  | 3 => some 4
  | 7 => some 4
  | _ => none

/-- The tag of an instruction (R315). -/
def Instr.tag : Instr → Nat
  | .load _   => 3
  | .read _   => 2
  | .store _  => 7
  | .sqrt _ _ => 1

/-- The width of an instruction in bytes (R301). -/
def Instr.width : Instr → Nat
  | .load _   => 4
  | .read _   => 1
  | .store _  => 4
  | .sqrt _ _ => 5

/-- The operand field of LOAD and STORE, from the bytes B1, B2 and B3 (R307, R309). -/
def field21 (b1 b2 b3 : Byte) : Nat :=
  ((b1.toNat &&& 0x1F) <<< 16) ||| (b2.toNat <<< 8) ||| b3.toNat

/-- The address field of SQRT, from the bytes B1 to B4 (R311). -/
def field29 (b1 b2 b3 b4 : Byte) : Nat :=
  ((b1.toNat &&& 0x1F) <<< 24) ||| (b2.toNat <<< 16) ||| (b3.toNat <<< 8) ||| b4.toNat

/-- LOAD after its first byte; the padding B4 is not read (R412). -/
def unpackLoad (get : Nat → Except Error Byte) (b1 : Byte) : Except Error (Instr × Nat) := do
  let b2 ← get 2
  let b3 ← get 3
  return (.load (field21 b1 b2 b3), 4)

/-- STORE after its first byte; the padding B4 is not read (R414). -/
def unpackStore (get : Nat → Except Error Byte) (b1 : Byte) : Except Error (Instr × Nat) := do
  let b2 ← get 2
  let b3 ← get 3
  return (.store (field21 b1 b2 b3), 4)

/-- SQRT after its first byte (R415). -/
def unpackSqrt (get : Nat → Except Error Byte) (b1 : Byte) : Except Error (Instr × Nat) := do
  let b2 ← get 2
  let b3 ← get 3
  let b4 ← get 4
  let b5 ← get 5
  return (.sqrt (field29 b1 b2 b3 b4) b5.toNat, 5)

/-- The decoder of one instruction: `get k` gives the byte `Bk`, or fails, and only the bytes the tag needs are
asked for, in order (R410, R412 to R416). -/
def unpack (get : Nat → Except Error Byte) : Except Error (Instr × Nat) := do
  let b1 ← get 1
  match tagOf b1 with
  | 1 => unpackSqrt get b1
  | 2 => return (.read (b1.toNat &&& 0x1F), 1)
  | 3 => unpackLoad get b1
  | 7 => unpackStore get b1
  | _ => throw (.unknownOpcode b1)

/-- Byte `Bk` of the instruction at offset `j` of a finite byte sequence (R411). -/
def byteAt (s : List Byte) (j k : Nat) : Except Error Byte :=
  match s[j + k - 1]? with
  | some b => .ok b
  | none   => .error (.truncated j)

/-- Standalone unpack of a finite byte sequence at an offset: all bytes of the instruction, padding included,
must be there (R411). -/
def unpackAt (s : List Byte) (j : Nat) : Except Error (Instr × Nat) :=
  match s[j]? with
  | none    => .error (.truncated j)
  | some b1 =>
    match lengthOfTag (tagOf b1) with
    | none     => .error (.unknownOpcode b1)
    | some len => if j + len ≤ s.length then unpack (byteAt s j) else .error (.truncated j)

/-! ### The encoder, from the format tables -/

/-- A first byte: the tag in bits 7..5 and the low five bits of `top` in bits 4..0 (R302). -/
def tagByte (tag top : Nat) : Byte := BitVec.ofNat 8 (tag * 32 + top % 32)

/-- The byte holding bits lo+7..lo of a field (R10). -/
def byteOf (v lo : Nat) : Byte := BitVec.ofNat 8 (v / 2 ^ lo)

/-- The bytes of a well-formed instruction, every field written as the format tables place it and the padding 0
(R303 to R306). It fills all 29 bits of SQRT's address, where the packer fills 25. -/
def encode : Instr → List Byte
  | .load const       => [tagByte 3 (const / 2 ^ 16), byteOf const 8, byteOf const 0, 0]
  | .read offset      => [tagByte 2 offset]
  | .store addr       => [tagByte 7 (addr / 2 ^ 16), byteOf addr 8, byteOf addr 0, 0]
  | .sqrt addr offset => [tagByte 1 (addr / 2 ^ 24), byteOf addr 16, byteOf addr 8, byteOf addr 0, byteOf offset 0]

/-! ### The packer -/

/-- LOAD's bytes (R402). -/
def packLoad (const : Nat) : List Byte :=
  let c := const &&& 0x3FFFFF
  [BitVec.ofNat 8 ((3 <<< 5) ||| (c >>> 16)), BitVec.ofNat 8 ((c >>> 8) &&& 0xFF), BitVec.ofNat 8 (c &&& 0xFF), 0]

/-- READ's byte (R403). -/
def packRead (offset : Nat) : List Byte := [BitVec.ofNat 8 ((2 <<< 5) ||| (offset &&& 0x1F))]

/-- STORE's bytes; the first is truncated to eight bits (R404). -/
def packStore (addr : Nat) : List Byte :=
  let a := addr &&& 0x1FFFFFF
  [BitVec.ofNat 8 (((7 <<< 5) ||| (a >>> 16)) &&& 0xFF), BitVec.ofNat 8 ((a >>> 8) &&& 0xFF),
    BitVec.ofNat 8 (a &&& 0xFF), 0]

/-- SQRT's bytes (R405). -/
def packSqrt (addr offset : Nat) : List Byte :=
  let a := addr &&& 0x1FFFFFF
  [BitVec.ofNat 8 ((1 <<< 5) ||| ((a >>> 24) &&& 0x1F)), BitVec.ofNat 8 ((a >>> 16) &&& 0xFF),
    BitVec.ofNat 8 ((a >>> 8) &&& 0xFF), BitVec.ofNat 8 (a &&& 0xFF), BitVec.ofNat 8 (offset &&& 0xFF)]

/-- The packer: one logical instruction, of any operand values, to its bytes (R401 to R405). -/
def pack : Instr → List Byte
  | .load const       => packLoad const
  | .read offset      => packRead offset
  | .store addr       => packStore addr
  | .sqrt addr offset => packSqrt addr offset

/-- An instruction with each operand reduced to its effective width: what pack followed by unpack gives back
(R310, R321). -/
def Instr.truncated : Instr → Instr
  | .load const       => .load (const % 2 ^ 21)
  | .read offset      => .read (offset % 2 ^ 5)
  | .store addr       => .store (addr % 2 ^ 21)
  | .sqrt addr offset => .sqrt (addr % 2 ^ 25) (offset % 2 ^ 8)

/-! ### Words as the opcode table numbers them -/

/-- The low `n` bytes of a number, most significant first: an instruction word W laid out as B1, B2, … (R11, R201). -/
def bigEndian : Nat → Nat → List Byte
  | 0,     _ => []
  | n + 1, w => BitVec.ofNat 8 (w >>> (8 * n)) :: bigEndian n w

/-- The bytes of a table word of `nbits` bits, followed by zero bytes up to the longest instruction (log 8). -/
def tableBytes (nbits w : Nat) : List Byte :=
  bigEndian (nbits / 8) w ++ List.replicate (5 - nbits / 8) 0

/-- What the decoder reads from an instruction word numbered as spec/opcode_table.json numbers it: the word W of
R11, whose most significant byte is B1 (log 8). -/
def decodeTableWord (nbits w : Nat) : Option Instr :=
  match unpackAt (tableBytes nbits w) 0 with
  | .ok (i, _) => some i
  | .error _   => none

end Sys2Proof
end

