-- ==== Sys2Proof/Machine/State.lean ====
section
/-! DEFINITION. The executor's state, the reasons a step can stop, and the state right after reset
(spec/10_state.md, spec/70_reset_and_hazards.md). -/

namespace Sys2Proof.Machine

/-- The run status (R108). `halted` and `error` are terminal. -/
inductive Status where
  /-- The next step fetches. -/
  | running
  /-- The normal halt. -/
  | halted
  /-- The error halt, with its record (R109). -/
  | error (record : ErrorRecord)
  deriving DecidableEq, Repr

/-- The executor's whole state (R102, R106, R108, R111, R114, R117) and the configuration of the run (R120). -/
structure State where
  /-- The Unified Memory in its canonical form: addresses strictly rising and below 65536, no entry holding 0,
  which is what an unlisted cell holds (R114, R116; log 1). -/
  mem    : List Host.Cell
  /-- The operand stack, top first (R111). -/
  stack  : List Nat
  /-- The instruction pointer; it does not wrap (R102, R104). -/
  ip     : Nat
  /-- `PLEN`, the program length in bytes (R106). -/
  plen   : Nat
  /-- The run status (R108). -/
  status : Status
  /-- What the launch fixed; no step changes it (R120; log 3). -/
  config : Config
  deriving DecidableEq, Repr

/-- Why the machine stops instead of stepping. -/
inductive Fault where
  /-- Raised by step alone, on a state whose status is Halted or Error: such a state has no step (R451, R464; log 5).
  Safe: the spec gives no further step there. -/
  | runEnded
  deriving DecidableEq, Repr

/-- Why an instruction has no meaning in the model. -/
inductive Refusal where
  /-- Raised by exec's arm of an instruction that has no meaning yet; no arm raises it in this model. Safe. -/
  | notModelled (mnemonic : String)
  deriving DecidableEq, Repr

/-- The machine right after reset: the start of a run with no program loaded and the reference fill
(R119, R701, R702; log 1, 2, 4). -/
def State.reset : State :=
  { mem := [], stack := [], ip := 0, plen := 0, status := .running, config := Config.reference }

end Sys2Proof.Machine
end

