-- ==== Sys2Proof/Machine/Memory.lean ====
section
/-! DEFINITION. The Unified Memory as a canonical list of cells: reading and writing one cell, the canonical form,
and the memory at the start of a run (spec/20_memory.md; R114, R701). -/

namespace Sys2Proof.Machine

/-- The Unified Memory: (address, byte) pairs (R114). -/
abbrev Memory := List Host.Cell

/-- What a cell that the list does not name holds: the spec's reference fill (R702; log 1). -/
def Memory.unlisted : Byte := 0

/-- The cell at an address. The search stops at the first entry past the address, since entries rise. -/
def Memory.read : Memory → Nat → Byte
  | [], _ => Memory.unlisted
  | (b, w) :: m, a => if b < a then Memory.read m a else if b = a then w else Memory.unlisted

/-- A memory entry in front of a list, unless it says what an unlisted cell holds anyway. -/
def Memory.cons (a : Nat) (v : Byte) (m : Memory) : Memory :=
  if v = Memory.unlisted then m else (a, v) :: m

/-- The memory with one cell replaced (R206). The old entry is dropped from its place on: in a canonical list
nothing but that entry goes, and in any other list a read still finds what was written. -/
def Memory.set : Memory → Nat → Byte → Memory
  | [], a, v => Memory.cons a v []
  | (b, w) :: m, a, v =>
    if b < a then (b, w) :: Memory.set m a v
    else if b = a then Memory.cons a v (m.dropWhile fun c => decide (c.1 ≤ a))
    else Memory.cons a v ((b, w) :: m)

/-- Addresses strictly rise from `lo` on and stay in memory, and no entry says what an unlisted cell holds. -/
def Memory.wfFrom : Nat → Memory → Bool
  | _, [] => true
  | lo, (a, v) :: m =>
    decide (lo ≤ a) && decide (a < memSize) && decide (v ≠ Memory.unlisted) && Memory.wfFrom (a + 1) m

/-- The canonical form of a memory: equal memories are equal lists. -/
def Memory.wf (m : Memory) : Bool := Memory.wfFrom 0 m

/-- The memory that holds the given bytes at rising addresses from `a` on. -/
def Memory.ofBytes : Nat → List Byte → Memory
  | _, [] => []
  | a, b :: bs => Memory.cons a b (Memory.ofBytes (a + 1) bs)

/-- The memory that holds `fill` in the `n` cells from `a` on. -/
def Memory.filled (fill : Nat → Byte) : Nat → Nat → Memory
  | _, 0 => []
  | a, n + 1 => Memory.cons a (fill a) (Memory.filled fill (a + 1) n)

/-- The memory at the start of a run: the blob from address 0 on, and `fill` above it (R701). -/
def Memory.image (fill : Nat → Byte) (blob : List Byte) : Memory :=
  Memory.ofBytes 0 blob ++ Memory.filled fill blob.length (memSize - blob.length)

end Sys2Proof.Machine
end

