-- ==== Sys2Proof/Machine/Ops.lean ====
section
/-! DEFINITION. The named operations over the state: the pseudocode primitives of R13, the advance of ip, and the
error halt, which is this hardware's exception entry (R610). There is no return from it (R612). -/

namespace Sys2Proof.Machine

/-- What a step answers. -/
abbrev Outcome := Host.Outcome State Fault Refusal

/-- The state with another memory. -/
def State.setMem (s : State) (m : Memory) : State := { s with mem := m }

/-- The state with another stack. -/
def State.setStack (s : State) (st : List Nat) : State := { s with stack := st }

/-- The state with another instruction pointer. -/
def State.setIp (s : State) (ip : Nat) : State := { s with ip := ip }

/-- The state with another status. -/
def State.setStatus (s : State) (st : Status) : State := { s with status := st }

/-- The error halt: the record is written with the failing instruction's address, ip stays there, and nothing else
changes (R109, R610). -/
def State.errorHalt (s : State) (e : Error) : State := s.setStatus (.error { error := e, loc := s.ip })

/-- Raising an error ends the step in the error halt (R13, R610). -/
def raise (e : Error) (s : State) : Outcome := .next (s.errorHalt e)

/-- The sequential advance past an instruction of `len` bytes; ip does not wrap (R104, R457). -/
def State.advance (s : State) (len : Nat) : State := s.setIp (s.ip + len)

/-- Whether STACK_DEPTH leaves room for one more value (R111, R607). -/
def State.hasRoom (s : State) : Bool :=
  match s.config.stackDepth with
  | none   => true
  | some d => decide (s.stack.length < d)

/-- A value on top of the stack (R111). -/
def State.pushed (s : State) (v : Nat) : State := s.setStack (v :: s.stack)

/-- `push v`: StackOverflow, and no push, when the depth would exceed STACK_DEPTH (R13, R111, R607). -/
def push (v : Nat) (s : State) : Except Error State :=
  if s.hasRoom then .ok (s.pushed v) else .error .stackOverflow

/-- `pop()`: the top element and the state without it; StackUnderflow on an empty stack (R13, R603). -/
def pop (s : State) : Except Error (Nat × State) :=
  match s.stack with
  | []        => .error .stackUnderflow
  | v :: rest => .ok (v, s.setStack rest)

/-- `MemRead(a, 1)`: the cell, or OutOfBounds for an address above 65535 (R13, R208). -/
def memRead (s : State) (a : Nat) : Except Error Byte :=
  if a < memSize then .ok (Memory.read s.mem a) else .error (.outOfBounds a)

/-- `MemWrite(a, 1, v)`: OutOfBounds for an address above 65535, then CellOverflow for a value above 255, else the
one cell is written (R13, R606, R611). -/
def memWrite (a v : Nat) (s : State) : Except Error State :=
  if memSize ≤ a then .error (.outOfBounds a)
  else if 255 < v then .error (.cellOverflow v)
  else .ok (s.setMem (Memory.set s.mem a (BitVec.ofNat 8 v)))

end Sys2Proof.Machine
end

