-- ==== Sys2Proof/Machine/Operands.lean ====
section
/-! DEFINITION. The operand forms: the indexed source address of READ and SQRT, and the integer square root.
The hardware has no flags (R107), so there is no file of flag computations. -/

namespace Sys2Proof.Machine

/-- The source address of READ and SQRT: the exact sum of the popped base and the offset field, neither wrapped nor
clamped (R209, R505, R511). -/
def sourceAddress (base offset : Nat) : Nat := base + offset

/-- The largest `r` up to a bound whose square is at most `v`. -/
def isqrtUpTo (v : Nat) : Nat → Nat
  | 0     => 0
  | r + 1 => if (r + 1) * (r + 1) ≤ v then r + 1 else isqrtUpTo v r

/-- The integer square root: the largest `r` with `r * r ≤ v` (R12, R512). -/
def isqrt (v : Nat) : Nat := isqrtUpTo v v

/-- The square root with its domain check: a negative value raises DomainError before any write (R512, R605).
A cell is never negative, so SQRT cannot take that arm (R116). -/
def checkedSqrt (v : Int) : Except Error Nat :=
  if v < 0 then .error (.domainError v) else .ok (isqrt v.toNat)

end Sys2Proof.Machine
end

