-- ==== Sys2Proof/Machine/StackMemory.lean ====
section
/-! DEFINITION. The meanings of the four instructions, in the order of spec/42_stack_memory_ops.md. Each is the
instruction's pseudocode: the primitives in the rule's order, the first that raises ending the step (R456), and the
advance of ip last (R457). -/

namespace Sys2Proof.Machine

/-- LOAD (R501): push the constant. -/
def execLoad (const : Nat) (s : State) : Outcome :=
  match push const s with
  | .error e => raise e s
  | .ok s1   => .next (s1.advance 4)

/-- READ (R504): pop the base, read the cell at base + offset, push it. The push takes the place the pop freed, so
it needs no room and READ never raises StackOverflow (R504, R607). -/
def execRead (offset : Nat) (s : State) : Outcome :=
  match pop s with
  | .error e => raise e s
  | .ok (base, s1) =>
    match memRead s1 (sourceAddress base offset) with
    | .error e => raise e s1
    | .ok v    => .next ((s1.pushed v.toNat).advance 1)

/-- STORE (R507): pop the value and write it to the absolute address. -/
def execStore (addr : Nat) (s : State) : Outcome :=
  match pop s with
  | .error e => raise e s
  | .ok (v, s1) =>
    match memWrite addr v s1 with
    | .error e => raise e s1
    | .ok s2   => .next (s2.advance 4)

/-- SQRT (R510): pop the base, read the cell at base + offset, and write its integer square root to the absolute
address. -/
def execSqrt (addr offset : Nat) (s : State) : Outcome :=
  match pop s with
  | .error e => raise e s
  | .ok (base, s1) =>
    match memRead s1 (sourceAddress base offset) with
    | .error e => raise e s1
    | .ok v =>
      match checkedSqrt v.toNat with
      | .error e => raise e s1
      | .ok r =>
        match memWrite addr r s1 with
        | .error e => raise e s1
        | .ok s2   => .next (s2.advance 5)

end Sys2Proof.Machine
end

