-- ==== Sys2Proof/Machine/Dispatch.lean ====
section
/-! DEFINITION. One arm per instruction (R454). -/

namespace Sys2Proof.Machine

def exec (i : Instr) (s : State) : Host.Outcome State Fault Refusal :=
  match i with
  | .load const => Sys2Proof.Machine.execLoad const s
  | .read offset => Sys2Proof.Machine.execRead offset s
  | .store addr => Sys2Proof.Machine.execStore addr s
  | .sqrt addr offset => Sys2Proof.Machine.execSqrt addr offset s

end Sys2Proof.Machine
end

