-- ==== Sys2Proof/Machine/Cycle.lean ====
section
/-! DEFINITION. The execution cycle: fetch through unpack, the halt test, one step (spec/41_execution_cycle.md),
and the placing of one instruction word where the next step fetches it. -/

namespace Sys2Proof.Machine

/-- Byte `Bk` of the instruction at ip, as memory stands (R213, R452). -/
def fetchByte (s : State) (k : Nat) : Except Error Byte := memRead s (s.ip + k - 1)

/-- The instruction at ip and its length; only the bytes the tag needs are read, and the check is against memory
size, not program length (R452, R453). -/
def fetch (s : State) : Except Error (Instr × Nat) := unpack (fetchByte s)

/-- One step of a running executor: the normal halt when ip has reached PLEN, else the fetched instruction's
meaning, or the error halt the fetch raises (R451, R458, R459). -/
def runningStep (s : State) : Outcome :=
  if s.plen ≤ s.ip then .next (s.setStatus .halted)
  else
    match fetch s with
    | .error e   => raise e s
    | .ok (i, _) => exec i s

/-- The executor's transition: a state that is not running has none (R451, R464; log 5). -/
def cycle (s : State) : Outcome :=
  match s.status with
  | .running => runningStep s
  | .halted  => .fault .runEnded
  | .error _ => .fault .runEnded

/-- Bytes written to memory at rising addresses; those that would lie above 65535 are left out. -/
def placeBytes (m : Memory) : Nat → List Byte → Memory
  | _, [] => m
  | a, b :: bs => if a < memSize then placeBytes (Memory.set m a b) (a + 1) bs else m

/-- The state with an instruction word laid where the next step fetches it: the bytes at ip, a program long enough
to reach them, and the running status (log 2, 8). -/
def placeWord (s : State) (nbits w : Nat) : State :=
  { s with
    mem := placeBytes s.mem s.ip (tableBytes nbits w)
    plen := max s.plen (min memSize (s.ip + max 1 (nbits / 8)))
    status := .running }

end Sys2Proof.Machine
end

