-- ==== Sys2Proof/Machine/Step.lean ====
section
/-! DEFINITION. The step, and the host's way to place one instruction where the step fetches it. -/

namespace Sys2Proof.Machine

/-- One step of the executor (R451, R458). -/
def step (s : State) : Host.Outcome State Fault Refusal := cycle s

/-- The state whose very next step fetches and runs the given instruction word. -/
def State.withFetchWord (s : State) (nbits w : Nat) : State := placeWord s nbits w

end Sys2Proof.Machine
end

