-- ==== Sys2Proof/Machine/Codec.lean ====
section
/-! DEFINITION. The assembler and its input records: pack applied in sequence, the transcriber's refusals, and the
trace line (spec/40_codec.md section 4; R325, R406). -/

namespace Sys2Proof.Machine

/-- One input record: an opcode name and its named operands (R325; log 7). -/
structure Record where
  name   : String
  fields : List (String × Int)
  deriving DecidableEq, Repr

/-- Why the transcriber refuses a record. -/
inductive TranscribeRefusal where
  /-- The opcode name is not exactly one of load, read, store and sqrt (R406). -/
  | unknownOpcode
  /-- The operands are not the variant's own (log 7), or one is negative (R401). -/
  | badOperands
  deriving DecidableEq, Repr

/-- The error code of a refusal: the packer's UnknownOpcode is error 1; the spec numbers no other (R601, R602). -/
def TranscribeRefusal.code : TranscribeRefusal → Option Nat
  | .unknownOpcode => some 1
  | .badOperands   => none

/-- The record's operand values, if they are named as the variant names them and none is negative (R325, R401). -/
def Record.operands (r : Record) (names : List String) : Option (List Nat) :=
  if r.fields.map Prod.fst = names ∧ ∀ f ∈ r.fields, 0 ≤ f.2 then some (r.fields.map fun f => f.2.toNat) else none

/-- The transcriber: a record to a logical instruction; the name is matched exactly, capitals included (R325, R406). -/
def transcribe (r : Record) : Except TranscribeRefusal Instr :=
  if r.name = "load" then
    match r.operands ["const"] with
    | some [c] => .ok (.load c)
    | _        => .error .badOperands
  else if r.name = "read" then
    match r.operands ["offset"] with
    | some [o] => .ok (.read o)
    | _        => .error .badOperands
  else if r.name = "store" then
    match r.operands ["addr"] with
    | some [a] => .ok (.store a)
    | _        => .error .badOperands
  else if r.name = "sqrt" then
    match r.operands ["addr", "offset"] with
    | some [a, o] => .ok (.sqrt a o)
    | _           => .error .badOperands
  else .error .unknownOpcode

/-- A lowercase hexadecimal digit. -/
def hexDigit (n : Nat) : Char := if n < 10 then Char.ofNat (48 + n) else Char.ofNat (87 + n)

/-- A byte as exactly two lowercase hexadecimal digits (R422). -/
def hexByte (b : Byte) : List Char := [hexDigit (b.toNat / 16), hexDigit (b.toNat % 16)]

/-- The characters of the trace line: the bytes in blob order, joined by one space (R422). -/
def traceChars : List Byte → List Char
  | [] => []
  | [b] => hexByte b
  | b :: c :: bs => hexByte b ++ ' ' :: traceChars (c :: bs)

/-- What a successful assembly produces: the blob and, when asked for, the trace line (R420, R422). -/
structure Assembled where
  blob  : List Byte
  trace : Option (List Char)
  deriving DecidableEq, Repr

/-- The assembler over logical instructions: the concatenation of their bytes, in list order (R320, R420). -/
def assemble (is : List Instr) (trace : Bool) : Assembled :=
  let out := is.flatMap pack
  { blob := out, trace := if trace then some (traceChars out) else none }

/-- Every record transcribed, in order, or the first refusal. -/
def transcribeAll : List Record → Except TranscribeRefusal (List Instr)
  | [] => .ok []
  | r :: rs => do
    let i ← transcribe r
    let is ← transcribeAll rs
    return i :: is

/-- The assembler over input records: a refused record leaves neither blob nor trace line (R421). -/
def assembleRecords (rs : List Record) (trace : Bool) : Except TranscribeRefusal Assembled :=
  match transcribeAll rs with
  | .error e => .error e
  | .ok is   => .ok (assemble is trace)

end Sys2Proof.Machine
end

