-- ==== Sys2Proof/Machine/Session.lean ====
section
/-! DEFINITION. The host's three transactions, load, run and dump (R705), and the verbose trace (R470). -/

namespace Sys2Proof

/-- FREE VALUE. The text of a verbose trace line, which the spec does not give (R470; log 6). -/
opaque Config.traceText : Machine.State → String

end Sys2Proof

namespace Sys2Proof.Machine

/-- Load: the start state of a run with this blob, or none when the blob is longer than memory and the host refuses
it (R701, R702, R704). `fill` is the launch input that says what the cells above the program hold. -/
def State.launch (config : Config) (fill : Nat → Byte) (blob : List Byte) : Option State :=
  if blob.length ≤ memSize then
    some { mem := Memory.image fill blob, stack := [], ip := 0, plen := blob.length, status := .running, config := config }
  else none

/-- At most `n` steps, stopping where there is no step (R460, R464). -/
def runFor : Nat → State → State
  | 0,     s => s
  | n + 1, s =>
    match step s with
    | .next t    => runFor n t
    | .fault _   => s
    | .refused _ => s

/-- Run: step until the status is not Running; PLEN + 1 steps are enough (R460, R463). -/
def run (s : State) : State := runFor (s.plen + 1) s

/-- Whether an ended run succeeded: the normal halt (R463, R705). -/
def State.succeeded (s : State) : Bool := decide (s.status = .halted)

/-- The rows (address, cell) of `n` cells from `a` on, in ascending address order (R466). -/
def dumpRows (m : Memory) : Nat → Nat → List (Nat × Byte)
  | _, 0     => []
  | a, n + 1 => (a, Memory.read m a) :: dumpRows m (a + 1) n

/-- Dump: the rows of an inclusive range; none for an empty range, and OutOfBounds with no rows for a bound outside
memory (R466, R467). -/
def dump (s : State) (first last : Int) : Except Error (List (Nat × Byte)) :=
  if last < first then .ok []
  else if first < 0 then .error (.outOfBounds first)
  else if 65535 < last then .error (.outOfBounds last)
  else .ok (dumpRows s.mem first.toNat (last - first + 1).toNat)

/-- The dump artifact's lines: a header and one row of two decimal columns per address (R469). -/
def dumpLines (rows : List (Nat × Byte)) : List String :=
  "address,value" :: rows.map fun r => toString r.1 ++ "," ++ toString r.2.toNat

/-- One whole session: load, run, dump; the host gets the final status and the dump (R705, R707). -/
def session (config : Config) (fill : Nat → Byte) (blob : List Byte) (first last : Int) :
    Option (Status × Except Error (List (Nat × Byte))) :=
  (State.launch config fill blob).map fun s => ((run s).status, dump (run s) first last)

/-- The trace line the step from a state emits: one when verbose is on and there is a step, else none (R470). -/
def stepTrace (s : State) : Option String :=
  if s.config.verbose = true ∧ s.status = .running then some (Config.traceText s) else none

end Sys2Proof.Machine
end

