-- ==== Sys2Proof/Safety.lean ====
section
/-! DEFINITION. The terms claims use: the invariant of the executor's state, and a safe run. -/

namespace Sys2Proof.Machine

/-- What every state of every run satisfies. -/
structure State.Inv (s : State) : Prop where
  /-- The memory keeps its canonical form, so every cell is a byte at an address 0..65535 (R114, R116). -/
  mem_wf      : Memory.wf s.mem = true
  /-- Every value on the stack is below 2^21 (R113). -/
  stack_small : ∀ v ∈ s.stack, v < 2 ^ 21
  /-- The stack is no deeper than STACK_DEPTH (R111). -/
  stack_depth : ∀ d, s.config.stackDepth = some d → s.stack.length ≤ d
  /-- PLEN lies in 0..65536 (R106). -/
  plen_le     : s.plen ≤ memSize
  /-- ip is at most four past the program's end (R104). -/
  ip_le       : s.ip ≤ s.plen + 4
  /-- A normal halt comes only at or past the program's end (R459). -/
  halted_end  : s.status = .halted → s.plen ≤ s.ip
  /-- An error record names the instruction ip still points at, inside the program (R109, R610). -/
  error_loc   : ∀ r, s.status = .error r → r.loc = s.ip ∧ s.ip < s.plen

/-- The state an error halt leaves, field by field: the given stack, the record of the error at the failing
instruction, and everything else as it was (R109, R610). -/
def State.failed (s : State) (stack : List Nat) (e : Error) : State :=
  { mem := s.mem, stack := stack, ip := s.ip, plen := s.plen,
    status := .error { error := e, loc := s.ip }, config := s.config }

/-- The opcode names an input record may have (R325, R406). -/
def opcodeNames : List String := ["load", "read", "store", "sqrt"]

/-- How many bytes the fetch of an instruction with this tag reads (R204). -/
def fetchedBytes : Nat → Nat
  | 1 => 5
  | 3 => 3
  | 7 => 3
  | _ => 1

/-- The bytes `code` stand at ip, those the fetch reads inside memory; the fourth byte of a four-byte instruction
is padding and may be anything or lie outside (R204, R312). -/
def State.holdsAtIp (s : State) (code : List Byte) : Prop :=
  ∀ k b, code[k]? = some b → ¬(code.length = 4 ∧ k = 3) → s.ip + k < memSize ∧ Memory.read s.mem (s.ip + k) = b

/-- A run from this state is safe: it ends in the normal halt (R463). -/
def State.runsSafely (s : State) : Bool := (run s).succeeded

end Sys2Proof.Machine
end

