-- ==== Sys2Proof/Certificates/Slice0/Obligations.lean ====
section
/-! DEFINITION. The statements for the provers. -/

open Sys2Proof Sys2Proof.Machine

/-! ### Encoding -/

/-- Decoding the encoding of a well-formed instruction, wherever it stands in a byte sequence, gives the instruction
back, every operand at every value its field admits (R303 to R306; SQRT's 29-bit address is the spec's decision D4). -/
def Obligations.DecodeInvertsEncode : Prop :=
  ∀ (i : Instr) (pre post : List Byte), i.wellFormed = true →
    unpackAt (pre ++ encode i ++ post) pre.length = .ok (i, i.width)

/-- Unpack of pack gives each operand reduced modulo two to its effective width, so an instruction whose operands
are below that comes back unchanged: the round-trip law, which the spec marks as its own derivation (spec/30 section
4); the effective widths of STORE and SQRT rest on its decisions D3 and D4. -/
def Obligations.RoundTripReducesToEffectiveWidth : Prop :=
  ∀ (i : Instr) (pre post : List Byte),
    unpackAt (pre ++ pack i ++ post) pre.length = .ok
      (match i with
        | .load const       => .load (const % 2 ^ 21)
        | .read offset      => .read (offset % 2 ^ 5)
        | .store addr       => .store (addr % 2 ^ 21)
        | .sqrt addr offset => .sqrt (addr % 2 ^ 25) (offset % 2 ^ 8), i.width) ∧
    (i.packable = true → unpackAt (pre ++ pack i ++ post) pre.length = .ok (i, i.width))

/-- Unpack is total on long enough byte sequences, and packing what was unpacked gives the word back exactly when
the padding of LOAD and STORE, and the bits W[36:33] of SQRT, are 0: the converse of the round-trip law, which the
spec marks as its own derivation (spec/30 section 4, resting on D4 and D17). -/
def Obligations.RepackGivesCanonicalWordsBack : Prop :=
  (∀ (w : List Byte) (b1 : Byte), w[0]? = some b1 →
    (lengthOfTag (tagOf b1) = none → unpackAt w 0 = .error (.unknownOpcode b1)) ∧
    (∀ len, lengthOfTag (tagOf b1) = some len → len ≤ w.length → ∃ i, unpackAt w 0 = .ok (i, len))) ∧
  (∀ (w : List Byte) (i : Instr), unpackAt w 0 = .ok (i, w.length) →
    (pack i = w ↔
      match i with
      | .load _   => w[3]? = some 0
      | .read _   => True
      | .store _  => w[3]? = some 0
      | .sqrt _ _ => ∃ b1, w[0]? = some b1 ∧ b1.toNat / 2 % 16 = 0))

/-- R403, R405: the packer's bytes for READ and SQRT in closed form, for every operand value. -/
def Obligations.PackedBytesOfReadAndSqrt : Prop :=
  (∀ offset, pack (.read offset) = [BitVec.ofNat 8 (0x40 + offset % 2 ^ 5)]) ∧
  (∀ addr offset, pack (.sqrt addr offset) =
    [BitVec.ofNat 8 (0x20 + addr / 2 ^ 24 % 2), BitVec.ofNat 8 (addr / 2 ^ 16 % 2 ^ 8),
      BitVec.ofNat 8 (addr / 2 ^ 8 % 2 ^ 8), BitVec.ofNat 8 (addr % 2 ^ 8), BitVec.ofNat 8 (offset % 2 ^ 8)])

/-- The packer's bytes for LOAD and STORE in closed form, for every operand value: the high bits vanish into the
tag. The closed forms are the spec's own derivation, and STORE's truncated first byte its decision D3 (spec/40
section 2). -/
def Obligations.PackedBytesOfLoadAndStore : Prop :=
  (∀ const, pack (.load const) =
    [BitVec.ofNat 8 (0x60 + const / 2 ^ 16 % 2 ^ 5), BitVec.ofNat 8 (const / 2 ^ 8 % 2 ^ 8),
      BitVec.ofNat 8 (const % 2 ^ 8), 0]) ∧
  (∀ addr, pack (.store addr) =
    [BitVec.ofNat 8 (0xE0 + addr / 2 ^ 16 % 2 ^ 5), BitVec.ofNat 8 (addr / 2 ^ 8 % 2 ^ 8),
      BitVec.ofNat 8 (addr % 2 ^ 8), 0])

/-- The length of pack's output and the tag in its first byte depend only on the variant: the spec's own derivation
in spec/40 section 2, from R301 and R302. -/
def Obligations.PackedLengthAndTagAreFixed : Prop :=
  ∀ i : Instr, ∃ b1 rest, pack i = b1 :: rest ∧
    match i with
    | .load _   => (pack i).length = 4 ∧ b1.toNat / 32 = 3
    | .read _   => (pack i).length = 1 ∧ b1.toNat / 32 = 2
    | .store _  => (pack i).length = 4 ∧ b1.toNat / 32 = 7
    | .sqrt _ _ => (pack i).length = 5 ∧ b1.toNat / 32 = 1

/-- R316, R416: the tags 0, 4, 5 and 6 are rejected from the first byte alone, whatever the other bytes hold and
whether or not they can be read. -/
def Obligations.UnknownTagsAreRejected : Prop :=
  ∀ (get : Nat → Except Error Byte) (b1 : Byte), get 1 = .ok b1 →
    (b1.toNat / 32 = 0 ∨ b1.toNat / 32 = 4 ∨ b1.toNat / 32 = 5 ∨ b1.toNat / 32 = 6) →
    unpack get = .error (.unknownOpcode b1)

/-- R315: the opcode map. The tag alone selects the instruction and its length, or none. -/
def Obligations.TagAloneSelectsInstruction : Prop :=
  ∀ (get : Nat → Except Error Byte) (b1 : Byte), get 1 = .ok b1 →
    (∀ i len, unpack get = .ok (i, len) →
      (b1.toNat / 32 = 1 ∧ len = 5 ∧ ∃ addr offset, i = .sqrt addr offset) ∨
      (b1.toNat / 32 = 2 ∧ len = 1 ∧ ∃ offset, i = .read offset) ∨
      (b1.toNat / 32 = 3 ∧ len = 4 ∧ ∃ const, i = .load const) ∨
      (b1.toNat / 32 = 7 ∧ len = 4 ∧ ∃ addr, i = .store addr)) ∧
    (b1.toNat / 32 ≠ 1 → b1.toNat / 32 ≠ 2 → b1.toNat / 32 ≠ 3 → b1.toNat / 32 ≠ 7 →
      unpack get = .error (.unknownOpcode b1))

/-- R307, R308: with W the big-endian word of the instruction's bytes, the decoder reads W[28:8] for LOAD, and for
STORE identically, whatever the padding W[7:0] is, and W[4:0] for READ. -/
def Obligations.DecodedFieldsAreWordFields : Prop :=
  ∀ (get : Nat → Except Error Byte) (b1 b2 b3 b4 : Byte), get 1 = .ok b1 →
    (b1.toNat / 32 = 2 → unpack get = .ok (.read (b1.toNat % 2 ^ 5), 1)) ∧
    (get 2 = .ok b2 → get 3 = .ok b3 →
      (b1.toNat / 32 = 3 → unpack get = .ok (.load
        ((b1.toNat * 2 ^ 24 + b2.toNat * 2 ^ 16 + b3.toNat * 2 ^ 8 + b4.toNat) / 2 ^ 8 % 2 ^ 21), 4)) ∧
      (b1.toNat / 32 = 7 → unpack get = .ok (.store
        ((b1.toNat * 2 ^ 24 + b2.toNat * 2 ^ 16 + b3.toNat * 2 ^ 8 + b4.toNat) / 2 ^ 8 % 2 ^ 21), 4)))

/-- With W the big-endian word of its five bytes, SQRT's address is W[36:8], all 29 bits, and its offset W[7:0]. The
29-bit address is the spec's decision D4 (spec/30 section 3). -/
def Obligations.DecodedSqrtFieldsAreWordFields : Prop :=
  ∀ (get : Nat → Except Error Byte) (b1 b2 b3 b4 b5 : Byte), get 1 = .ok b1 → get 2 = .ok b2 → get 3 = .ok b3 →
    get 4 = .ok b4 → get 5 = .ok b5 → b1.toNat / 32 = 1 →
    unpack get = .ok (.sqrt
      ((b1.toNat * 2 ^ 32 + b2.toNat * 2 ^ 24 + b3.toNat * 2 ^ 16 + b4.toNat * 2 ^ 8 + b5.toNat) / 2 ^ 8 % 2 ^ 29)
      ((b1.toNat * 2 ^ 32 + b2.toNat * 2 ^ 24 + b3.toNat * 2 ^ 16 + b4.toNat * 2 ^ 8 + b5.toNat) % 2 ^ 8), 5)

/-- R312: the padding byte of LOAD and STORE takes no part in decoding, and the packer writes 0 there. -/
def Obligations.PaddingIsIgnoredAndPackedZero : Prop :=
  (∀ (get get' : Nat → Except Error Byte) (b1 : Byte), get 1 = .ok b1 → (b1.toNat / 32 = 3 ∨ b1.toNat / 32 = 7) →
    (∀ k, k ≠ 4 → get k = get' k) → unpack get = unpack get') ∧
  (∀ const, (pack (.load const))[3]? = some 0) ∧ (∀ addr, (pack (.store addr))[3]? = some 0)

/-- The verdicts of standalone unpack, the spec's decision D17 (spec/40 section 3): UnknownOpcode for an unknown
tag, Truncated unless all the instruction's bytes, padding included, are there, else what unpack reads from them. -/
def Obligations.StandaloneUnpackVerdicts : Prop :=
  ∀ (s : List Byte) (j : Nat),
    (s[j]? = none → unpackAt s j = .error (.truncated j)) ∧
    (∀ b1, s[j]? = some b1 →
      (lengthOfTag (tagOf b1) = none → unpackAt s j = .error (.unknownOpcode b1)) ∧
      (∀ len, lengthOfTag (tagOf b1) = some len →
        (s.length < j + len → unpackAt s j = .error (.truncated j)) ∧
        (j + len ≤ s.length → ∃ i, unpackAt s j = .ok (i, len) ∧
          ∀ get : Nat → Except Error Byte, (∀ k b, 1 ≤ k → s[j + k - 1]? = some b → get k = .ok b) →
            unpack get = .ok (i, len))))

/-- Words written out from the spec's encodings decode to the instructions they stand for (spec/95 section 2). The word
with W[36:33] not 0 is read with all 29 bits of SQRT's address, the spec's decision D4 (log 10); that a table word is
laid out with its most significant byte first is the model's deduction (log 8). -/
def Obligations.SpecWordsDecode : Prop :=
  decodeTableWord 32 0x60000800 = some (.load 8) ∧ decodeTableWord 8 0x59 = some (.read 25) ∧
  decodeTableWord 32 0xE000DA00 = some (.store 218) ∧ decodeTableWord 40 0x200002B918 = some (.sqrt 697 24) ∧
  decodeTableWord 32 0x6000085A = some (.load 8) ∧ decodeTableWord 40 0x3F00000000 = some (.sqrt 0x1F000000 0) ∧
  decodeTableWord 8 0x80 = none

/-! ### The assembler -/

/-- Each instruction of an assembled list stands at the sum of the widths before it, and decodes there to itself
with its operands at their effective widths (R320, R420, R321). -/
def Obligations.AssembledInstructionsDecodeInPlace : Prop :=
  ∀ (pre : List Instr) (i : Instr) (post : List Instr) (trace : Bool),
    unpackAt (assemble (pre ++ i :: post) trace).blob (pre.map Instr.width).sum = .ok (i.truncated, i.width)

/-- R420, R423: the blob is the concatenation of the packed instructions in list order, as long as their widths
together, and the trace switch does not change it. -/
def Obligations.AssemblyConcatenatesPackedBytes : Prop :=
  ∀ (l : List Instr) (trace : Bool),
    (assemble [] trace).blob = [] ∧
    (∀ i, (assemble (i :: l) trace).blob = pack i ++ (assemble l trace).blob) ∧
    (assemble l trace).blob.length = (l.map Instr.width).sum ∧
    (assemble l true).blob = (assemble l false).blob ∧
    ((assemble l trace).trace.isSome = true ↔ trace = true)

/-- The transcriber refuses as UnknownOpcode exactly the records whose opcode name is none of the four, compared
case by case (the spec's decision D20, spec/40 section 2); the operands' form is the model's choice (log 7). -/
def Obligations.TranscriberRefusesUnknownNames : Prop :=
  (∀ r : Record, transcribe r = .error .unknownOpcode ↔ r.name ∉ opcodeNames) ∧
  (∀ c o a : Nat,
    transcribe { name := "load", fields := [("const", (c : Int))] } = .ok (.load c) ∧
    transcribe { name := "read", fields := [("offset", (o : Int))] } = .ok (.read o) ∧
    transcribe { name := "store", fields := [("addr", (a : Int))] } = .ok (.store a) ∧
    transcribe { name := "sqrt", fields := [("addr", (a : Int)), ("offset", (o : Int))] } = .ok (.sqrt a o))

/-- A record whose opcode is unknown aborts the assembly with neither blob nor trace (the spec's decision D16,
spec/40 section 4), and records that all transcribe give the blob of their instructions. -/
def Obligations.UnknownRecordAbortsAssembly : Prop :=
  (∀ (pre : List Record) (r : Record) (post : List Record) (trace : Bool),
    (∀ q ∈ pre, ∃ i, transcribe q = .ok i) → r.name ∉ opcodeNames →
    assembleRecords (pre ++ r :: post) trace = .error .unknownOpcode) ∧
  (∀ (rs : List Record) (l : List Instr) (trace : Bool), rs.map transcribe = l.map Except.ok →
    assembleRecords rs trace = .ok (assemble l trace))

/-- The trace line of a blob holds each byte as two lowercase hexadecimal digits, one space between bytes, and
nothing before or after (the spec's decision D18, spec/40 section 4); it is emitted exactly when asked for. -/
def Obligations.TraceLineHoldsTwoHexDigitsPerByte : Prop :=
  (∀ blob : List Byte,
    (traceChars blob).length = 3 * blob.length - 1 ∧
    ∀ k b, blob[k]? = some b →
      (traceChars blob)[3 * k]? = "0123456789abcdef".toList[b.toNat / 16]? ∧
      (traceChars blob)[3 * k + 1]? = "0123456789abcdef".toList[b.toNat % 16]? ∧
      (k + 1 < blob.length → (traceChars blob)[3 * k + 2]? = some ' ')) ∧
  (∀ l : List Instr, (assemble l true).trace = some (traceChars (assemble l true).blob) ∧
    (assemble l false).trace = none)

/-! ### Reset, launch and the invariant -/

/-- The state right after reset: ip 0, an empty stack, running (R119), and the model's own choices: no program (log
2), every cell at the reference fill 0 (log 1), an unbounded stack (R9) and no trace (log 4). -/
def Obligations.ResetIsTheFreshStart : Prop :=
  State.reset.ip = 0 ∧ State.reset.stack = [] ∧ State.reset.status = .running ∧ State.reset.plen = 0 ∧
  State.reset.config.stackDepth = none ∧ State.reset.config.verbose = false ∧
  ∀ a, Memory.read State.reset.mem a = 0

/-- R703: a launch starts at ip 0 with an empty stack and the blob's bytes from address 0 on; PLEN is the blob's
length and the status Running (R119). -/
def Obligations.LaunchLoadsTheProgramAtZero : Prop :=
  ∀ (config : Config) (fill : Nat → Byte) (blob : List Byte), blob.length ≤ 65536 →
    ∃ s, State.launch config fill blob = some s ∧
      s.ip = 0 ∧ s.stack = [] ∧ s.plen = blob.length ∧ s.status = .running ∧ s.config = config ∧
      ∀ a b, blob[a]? = some b → Memory.read s.mem a = b

/-- A launch fills the cells above the program with its fill argument (the spec's decision D5) and refuses exactly
the blobs longer than memory (its decision D12; spec/70 sections 1 and 2). -/
def Obligations.LaunchFillsAboveTheProgram : Prop :=
  (∀ (config : Config) (fill : Nat → Byte) (blob : List Byte) (s : State),
    State.launch config fill blob = some s →
    ∀ a, blob.length ≤ a → a ≤ 65535 → Memory.read s.mem a = fill a) ∧
  (∀ (config : Config) (fill : Nat → Byte) (blob : List Byte),
    State.launch config fill blob = none ↔ 65536 < blob.length)

/-- Every launch starts in a state that satisfies the invariant. -/
def Obligations.LaunchEstablishesInvariant : Prop :=
  ∀ (config : Config) (fill : Nat → Byte) (blob : List Byte) (s : State),
    State.launch config fill blob = some s → s.Inv

/-- The state right after reset satisfies the invariant. -/
def Obligations.ResetSatisfiesInvariant : Prop := State.reset.Inv

/-- Every step keeps the invariant: memory canonical (R114, R116), stack values below 2^21 (R113), stack within
STACK_DEPTH (R111), PLEN in range (R106), ip at most PLEN + 4 (R104), a halt only past the end (R459), and an error
record that names the instruction at ip (R109). Its byte cells rest on the spec's decision D6, its stack bound and
ip bound on the spec's own derivations, and its canonical memory is the model's choice (log 1). -/
def Obligations.StepKeepsInvariant : Prop :=
  ∀ s t : State, s.Inv → step s = .next t → t.Inv

/-- Two canonical memories with the same 65536 cells are the same list: the model's choice of memory as data (log 1)
keeps one list for each contents. -/
def Obligations.CanonicalMemoryIsUnique : Prop :=
  ∀ m n : Memory, Memory.wf m = true → Memory.wf n = true →
    (∀ a, a ≤ 65535 → Memory.read m a = Memory.read n a) → m = n

/-! ### Instruction results and where each instruction errs -/

/-- R501: LOAD pushes its constant and advances ip by 4; with STACK_DEPTH set and that many values on the stack it
raises StackOverflow before pushing (the error kind is the spec's decision D8, in R607; R501 states the case). -/
def Obligations.LoadPushesItsConstant : Prop :=
  (∀ (const : Nat) (s : State), (∀ d, s.config.stackDepth = some d → s.stack.length < d) →
    exec (.load const) s = .next { s with stack := const :: s.stack, ip := s.ip + 4 }) ∧
  (∀ (const d : Nat) (s : State), s.config.stackDepth = some d → d ≤ s.stack.length →
    exec (.load const) s = .next (s.failed s.stack .stackOverflow))

/-- R504, R505: READ replaces the popped base by the cell at the exact sum base + offset and advances ip by 1; an
empty stack raises StackUnderflow, a sum above 65535 raises OutOfBounds of that sum with the base popped, and
nothing else is raised. That the pop is kept is R504's own text; R610 marks it the spec's decision D9. -/
def Obligations.ReadReplacesBaseByCell : Prop :=
  (∀ (offset base : Nat) (rest : List Nat) (s : State), s.stack = base :: rest → base + offset ≤ 65535 →
    exec (.read offset) s =
      .next { s with stack := (Memory.read s.mem (base + offset)).toNat :: rest, ip := s.ip + 1 }) ∧
  (∀ (offset : Nat) (s : State), s.stack = [] → exec (.read offset) s = .next (s.failed [] .stackUnderflow)) ∧
  (∀ (offset base : Nat) (rest : List Nat) (s : State), s.stack = base :: rest → 65535 < base + offset →
    exec (.read offset) s = .next (s.failed rest (.outOfBounds ((base + offset : Nat) : Int))))

/-- STORE of a byte value to an address in memory pops the value, writes it to the one cell its absolute address
names and advances ip by 4, with nothing else changed (R202, R206, R508). -/
def Obligations.StoreWritesTheOneCell : Prop :=
  ∀ (addr v : Nat) (rest : List Nat) (s : State), s.stack = v :: rest → addr ≤ 65535 → v ≤ 255 →
    ∃ t, exec (.store addr) s = .next t ∧ (Memory.read t.mem addr).toNat = v ∧
      (∀ a, a ≠ addr → Memory.read t.mem a = Memory.read s.mem a) ∧
      t.stack = rest ∧ t.ip = s.ip + 4 ∧ t.plen = s.plen ∧ t.status = s.status ∧ t.config = s.config

/-- STORE raises, in this order, StackUnderflow, OutOfBounds of the address, and CellOverflow of the value, the last
two with the value popped, and no cell changed. The order is the spec's decision D10, CellOverflow its decision D6,
and the kept pop its decision D9 (spec/42 section 3, spec/60 section 2). -/
def Obligations.StoreErrorsInOrder : Prop :=
  (∀ (addr : Nat) (s : State), s.stack = [] → exec (.store addr) s = .next (s.failed [] .stackUnderflow)) ∧
  (∀ (addr v : Nat) (rest : List Nat) (s : State), s.stack = v :: rest → 65535 < addr →
    exec (.store addr) s = .next (s.failed rest (.outOfBounds (addr : Int)))) ∧
  (∀ (addr v : Nat) (rest : List Nat) (s : State), s.stack = v :: rest → addr ≤ 65535 → 255 < v →
    exec (.store addr) s = .next (s.failed rest (.cellOverflow v)))

/-- SQRT pops the base, reads the cell at the exact sum base + offset, writes the largest integer whose square is at
most that cell to the one cell its absolute address names, and advances ip by 5 (R510, R511); in this order it
raises StackUnderflow, OutOfBounds of the source and OutOfBounds of the destination, the last two with the base
popped, and no cell changed. That the pop is kept is the spec's decision D9, in R610, and the order of the errors its
decision D10, in R611 (log 10). -/
def Obligations.SqrtWritesTheRootOfTheSource : Prop :=
  (∀ (addr offset base : Nat) (rest : List Nat) (s : State), s.stack = base :: rest → base + offset ≤ 65535 →
    addr ≤ 65535 →
    ∃ t r, exec (.sqrt addr offset) s = .next t ∧ (Memory.read t.mem addr).toNat = r ∧
      r * r ≤ (Memory.read s.mem (base + offset)).toNat ∧
      (Memory.read s.mem (base + offset)).toNat < (r + 1) * (r + 1) ∧
      (∀ a, a ≠ addr → Memory.read t.mem a = Memory.read s.mem a) ∧
      t.stack = rest ∧ t.ip = s.ip + 5 ∧ t.plen = s.plen ∧ t.status = s.status ∧ t.config = s.config) ∧
  (∀ (addr offset : Nat) (s : State), s.stack = [] →
    exec (.sqrt addr offset) s = .next (s.failed [] .stackUnderflow)) ∧
  (∀ (addr offset base : Nat) (rest : List Nat) (s : State), s.stack = base :: rest → 65535 < base + offset →
    exec (.sqrt addr offset) s = .next (s.failed rest (.outOfBounds ((base + offset : Nat) : Int)))) ∧
  (∀ (addr offset base : Nat) (rest : List Nat) (s : State), s.stack = base :: rest → base + offset ≤ 65535 →
    65535 < addr → exec (.sqrt addr offset) s = .next (s.failed rest (.outOfBounds (addr : Int))))

/-- The integer square root is k exactly when k*k ≤ v < (k+1)*(k+1); a negative value raises DomainError, and no
cell can hold one. The root is the spec's definition (spec/42 section 4), the DomainError policy its decision D14. -/
def Obligations.SquareRootIsExact : Prop :=
  (∀ v k : Nat, isqrt v = k ↔ k * k ≤ v ∧ v < (k + 1) * (k + 1)) ∧
  (∀ v : Int, v < 0 → checkedSqrt v = .error (.domainError v)) ∧
  (∀ b : Byte, checkedSqrt (b.toNat : Int) = .ok (isqrt b.toNat) ∧ isqrt b.toNat ≤ 15)

/-! ### Frames -/

/-- LOAD and READ leave every cell of memory, PLEN and the configuration as they were, and every stack value below the
top one. That READ's error halt after the pop keeps the pop is the spec's decision D9 (R610, log 10). -/
def Obligations.PushingInstructionsFrame : Prop :=
  ∀ (i : Instr) (s t : State), ((∃ const, i = .load const) ∨ ∃ offset, i = .read offset) → exec i s = .next t →
    (∀ a, Memory.read t.mem a = Memory.read s.mem a) ∧ t.plen = s.plen ∧ t.config = s.config ∧
    (t.status = s.status ∨ ∃ e, t.status = .error { error := e, loc := s.ip }) ∧
    (match i with
      | .load _ => t.stack = s.stack ∨ t.stack.tail = s.stack
      | _       => t.stack = s.stack ∨ t.stack = s.stack.tail ∨ t.stack.tail = s.stack.tail)

/-- STORE and SQRT leave every cell but the one their absolute address names, PLEN and the configuration as they were,
and every stack value below the popped one. That an error halt after the pop keeps the pop is the spec's decision D9
(R610, log 10). -/
def Obligations.StoringInstructionsFrame : Prop :=
  ∀ (i : Instr) (addr : Nat) (s t : State), (i = .store addr ∨ ∃ offset, i = .sqrt addr offset) →
    exec i s = .next t →
    (∀ a, a ≠ addr → Memory.read t.mem a = Memory.read s.mem a) ∧ t.plen = s.plen ∧ t.config = s.config ∧
    (t.status = s.status ∨
      ((∀ a, Memory.read t.mem a = Memory.read s.mem a) ∧ ∃ e, t.status = .error { error := e, loc := s.ip })) ∧
    t.stack = s.stack.tail

/-- R112: how many values each instruction pops and pushes when it completes. -/
def Obligations.StackMovesAsTheTableSays : Prop :=
  ∀ (i : Instr) (s t : State), s.status = .running → exec i s = .next t → t.status = .running →
    match i with
    | .load _   => t.stack.length = s.stack.length + 1
    | .read _   => 1 ≤ s.stack.length ∧ t.stack.length = s.stack.length
    | .store _  => t.stack.length + 1 = s.stack.length
    | .sqrt _ _ => t.stack.length + 1 = s.stack.length

/-! ### The step -/

/-- A step runs the decoded instruction: when the bytes at ip decode, step is exec of what they decode to. -/
def Obligations.StepRunsTheFetchedInstruction : Prop :=
  ∀ (s : State) (i : Instr) (len : Nat), s.status = .running → s.ip < s.plen →
    unpack (fun k => memRead s (s.ip + k - 1)) = .ok (i, len) → step s = exec i s ∧ len = i.width

/-- When the encoding of a well-formed instruction stands at ip, the step is that instruction's meaning, whatever the
padding byte holds; SQRT's 29-bit address is the spec's decision D4 (log 10). -/
def Obligations.StepRunsTheEncodedInstruction : Prop :=
  ∀ (s : State) (i : Instr), s.status = .running → s.ip < s.plen → i.wellFormed = true →
    s.holdsAtIp (encode i) → step s = exec i s

/-- The contract between the packer and the executor (R3): when the packed bytes of any instruction stand at ip, the
step is the meaning of that instruction with its operands at their effective widths, which rest on the spec's
decisions D3 and D4. -/
def Obligations.PackerAndExecutorAgree : Prop :=
  ∀ (s : State) (i : Instr), s.status = .running → s.ip < s.plen → s.holdsAtIp (pack i) →
    step s = exec i.truncated s

/-- A running state steps in exactly one of three ways (R451): the normal halt, one instruction executed and ip
advanced past it, or the error halt, which leaves ip where it was by the spec's decision D9 (R610, log 10). A state
that is not running has no step, for which step answers the fault runEnded: the model's deduction (log 5). -/
def Obligations.StepDoesOneOfThreeThings : Prop :=
  (∀ s : State, s.status = .running → ∃ t, step s = .next t ∧
    ((t.status = .halted ∧ s.plen ≤ s.ip) ∨
      (t.status = .running ∧ s.ip < s.plen ∧ ∃ i, fetch s = .ok (i, i.width) ∧ exec i s = .next t ∧
        t.ip = s.ip + i.width) ∨
      (s.ip < s.plen ∧ t.ip = s.ip ∧ ∃ r, t.status = .error r))) ∧
  (∀ s : State, s.status ≠ .running → step s = .fault .runEnded)

/-- R459: a running state halts normally exactly when ip has reached PLEN, and nothing but the status changes. -/
def Obligations.NormalHaltExactlyAtTheEnd : Prop :=
  ∀ s : State, s.status = .running →
    (s.plen ≤ s.ip ↔ step s = .next { s with status := .halted }) ∧
    (∀ t, step s = .next t → (t.status = .halted ↔ s.plen ≤ s.ip))

/-- An instruction that completes advances ip by its length, whatever PLEN and the memory size are (R457). One that
raises an error leaves ip at its own address: the spec's decision D9 (R610, log 10). -/
def Obligations.CompletionAdvancesIpByTheLength : Prop :=
  ∀ (i : Instr) (s t : State), s.status = .running → exec i s = .next t →
    (t.status = .running → t.ip = s.ip + match i with
      | .load _ => 4
      | .read _ => 1
      | .store _ => 4
      | .sqrt _ _ => 5) ∧
    (∀ r, t.status = .error r → t.ip = s.ip)

/-! ### Errors -/

/-- An error halt records the failing instruction's address, leaves ip there, writes no cell, keeps the pops already
done and no others, and is final (spec/60 section 2; what the stack and ip hold is the spec's decision D9, log 10,
and the fault runEnded for the step that does not exist the model's deduction, log 5). -/
def Obligations.ErrorHaltIsPrecise : Prop :=
  ∀ (s t : State) (r : ErrorRecord), s.status = .running → step s = .next t → t.status = .error r →
    r.loc = s.ip ∧ t.ip = s.ip ∧ t.mem = s.mem ∧ t.plen = s.plen ∧ t.config = s.config ∧
    (∀ e, fetch s = .error e → r.error = e ∧ t.stack = s.stack) ∧
    (∀ i len, fetch s = .ok (i, len) →
      (r.error = .stackUnderflow ∨ r.error = .stackOverflow → t.stack = s.stack) ∧
      (r.error ≠ .stackUnderflow → r.error ≠ .stackOverflow → ∃ v, s.stack = v :: t.stack)) ∧
    step t = .fault .runEnded

/-- Which errors each instruction raises, and the information each carries (spec/60 section 1; CellOverflow and
StackOverflow are the spec's decisions D6 and D8). -/
def Obligations.EachInstructionRaisesItsOwnErrors : Prop :=
  ∀ (i : Instr) (s t : State) (r : ErrorRecord), s.status = .running → exec i s = .next t → t.status = .error r →
    match i with
    | .load _ => r.error = .stackOverflow
    | .read offset => (s.stack = [] ∧ r.error = .stackUnderflow) ∨
        ∃ base rest, s.stack = base :: rest ∧ 65535 < base + offset ∧
          r.error = .outOfBounds ((base + offset : Nat) : Int)
    | .store addr => (s.stack = [] ∧ r.error = .stackUnderflow) ∨
        (65535 < addr ∧ r.error = .outOfBounds (addr : Int)) ∨
        (addr ≤ 65535 ∧ ∃ v rest, s.stack = v :: rest ∧ 255 < v ∧ r.error = .cellOverflow v)
    | .sqrt addr offset => (s.stack = [] ∧ r.error = .stackUnderflow) ∨
        (∃ base rest, s.stack = base :: rest ∧ 65535 < base + offset ∧
          r.error = .outOfBounds ((base + offset : Nat) : Int)) ∨
        (65535 < addr ∧ r.error = .outOfBounds (addr : Int))

/-- The executor never raises Truncated, nor can it reach DomainError (spec/60 section 1; the spec's decisions D14
and D17). -/
def Obligations.TruncatedAndDomainErrorNeverHalt : Prop :=
  ∀ (s t : State) (r : ErrorRecord), s.status = .running → step s = .next t → t.status = .error r →
    (∀ j, r.error ≠ .truncated j) ∧ (∀ v, r.error ≠ .domainError v)

/-- StackOverflow is raised exactly by a LOAD onto a stack that already holds STACK_DEPTH values, and the push does
not happen (spec/60 section 1, the spec's decision D8). -/
def Obligations.StackOverflowOnlyFromFullLoad : Prop :=
  ∀ s t : State, s.status = .running → step s = .next t →
    ((∃ loc, t.status = .error { error := .stackOverflow, loc := loc }) ↔
      s.ip < s.plen ∧ (∃ const, fetch s = .ok (.load const, 4)) ∧
        ∃ d, s.config.stackDepth = some d ∧ d ≤ s.stack.length) ∧
    ((∃ loc, t.status = .error { error := .stackOverflow, loc := loc }) → t.stack = s.stack)

/-- The executor's case of UnknownOpcode (spec/60 section 1): an unknown tag at ip halts the run with UnknownOpcode
of the fetched byte. -/
def Obligations.UnknownOpcodeHaltsTheRun : Prop :=
  ∀ (s : State) (b1 : Byte), s.status = .running → s.ip < s.plen → s.plen ≤ 65536 →
    Memory.read s.mem s.ip = b1 →
    (b1.toNat / 32 = 0 ∨ b1.toNat / 32 = 4 ∨ b1.toNat / 32 = 5 ∨ b1.toNat / 32 = 6) →
    step s = .next (s.failed s.stack (.unknownOpcode b1))

/-- A fetch succeeds when the bytes it reads lie in memory, and otherwise raises OutOfBounds of the first address
past the top, with nothing changed: the spec's own derivation, from its decision D11 (spec/41 section 1). -/
def Obligations.FetchPastTheTopIsOutOfBounds : Prop :=
  ∀ (s : State) (tag : Nat), s.status = .running → s.ip < s.plen → s.plen ≤ 65536 →
    (Memory.read s.mem s.ip).toNat / 32 = tag → (tag = 1 ∨ tag = 2 ∨ tag = 3 ∨ tag = 7) →
    (s.ip + fetchedBytes tag ≤ 65536 → ∃ i, fetch s = .ok (i, i.width)) ∧
    (65536 < s.ip + fetchedBytes tag → step s = .next (s.failed s.stack (.outOfBounds 65536)))

/-! ### What a step does not depend on -/

/-- PLEN is read by the halt test alone and never written: two states that differ only in PLEN, both before the end,
step alike (R106; that a fetch reads past PLEN is the spec's decision D11, spec/41 section 1). -/
def Obligations.ProgramLengthOnlyGatesTheHalt : Prop :=
  ∀ (s t : State) (p : Nat), s.status = .running → s.ip < s.plen → s.ip < p → step s = .next t →
    t.plen = s.plen ∧ step { s with plen := p } = .next { t with plen := p }

/-- The verbose switch decides whether each step emits a trace line, and changes no state, no status and no dump
(R470). That every step from a running state emits its line with verbose on, the halting one included, is the
model's choice (log 6). -/
def Obligations.VerboseOnlyControlsTheTrace : Prop :=
  (∀ (s t : State) (v : Bool), step s = .next t →
    step { s with config := { s.config with verbose := v } } =
      .next { t with config := { t.config with verbose := v } }) ∧
  (∀ (s : State) (v : Bool) (first last : Int),
    dump { s with config := { s.config with verbose := v } } first last = dump s first last) ∧
  (∀ s : State, s.status = .running → ((stepTrace s).isSome = true ↔ s.config.verbose = true))

/-- The fetch depends on nothing but ip and the cells at ip to ip + 4 as they stand at that moment, so it sees every
earlier write (R213, R214). -/
def Obligations.FetchReadsOnlyTheCellsAtIp : Prop :=
  ∀ s u : State, u.ip = s.ip → (∀ k, k < 5 → Memory.read u.mem (s.ip + k) = Memory.read s.mem (s.ip + k)) →
    fetch u = fetch s

/-! ### Runs and the dump -/

/-- From every state a run ends within PLEN + 1 steps, and more steps change nothing: the spec's own derivation
(spec/41 section 2) from R457 and R459, with R464. -/
def Obligations.EveryRunEndsWithinProgramLength : Prop :=
  ∀ s : State, (run s).status ≠ .running ∧ ∀ n, s.plen + 1 ≤ n → runFor n s = run s

/-- Every launched run ends in a state of the invariant, halted past its program or stopped by an error inside it,
with PLEN and the configuration as launched (R463). The invariant's canonical memory is the model's choice (log 1),
and that an error leaves ip at the failing instruction the spec's decision D9 (R610, log 10). -/
def Obligations.LaunchedRunsEndInTheInvariant : Prop :=
  ∀ (config : Config) (fill : Nat → Byte) (blob : List Byte) (s : State),
    State.launch config fill blob = some s →
    (run s).Inv ∧ (run s).plen = blob.length ∧ (run s).config = config ∧
    (((run s).status = .halted ∧ blob.length ≤ (run s).ip) ∨
      ∃ r, (run s).status = .error r ∧ r.loc = (run s).ip ∧ r.loc < blob.length)

/-- R466, R468: the dump of a range inside memory has one row per address, in ascending order, each holding the
address and its cell. -/
def Obligations.DumpHasOneRowPerAddress : Prop :=
  ∀ (s : State) (first last : Nat), first ≤ last → last ≤ 65535 →
    ∃ rows, dump s (first : Int) (last : Int) = .ok rows ∧ rows.length = last - first + 1 ∧
      ∀ k, k ≤ last - first → rows[k]? = some (first + k, Memory.read s.mem (first + k))

/-- The dump of a backward range is empty; a bound outside memory gives no rows and is reported as OutOfBounds, of
the first bound when that one is negative: the spec's decision D13 (spec/41 section 3). -/
def Obligations.DumpBoundsAreChecked : Prop :=
  ∀ (s : State) (first last : Int),
    (last < first → dump s first last = .ok []) ∧
    (first ≤ last → first < 0 → dump s first last = .error (.outOfBounds first)) ∧
    (first ≤ last → 0 ≤ first → 65535 < last → dump s first last = .error (.outOfBounds last)) ∧
    (first ≤ last → 0 ≤ first → last ≤ 65535 → ∃ rows, dump s first last = .ok rows)
end

