-- ==== Sys2Proof/Laws/Codec.lean ====
section
/-! SUPPORT. The codec's shift and mask arithmetic as place values, and what the decoder can answer. -/

namespace Sys2Proof

theorem tagOf_eq_div (b : Byte) : tagOf b = b.toNat / 32 := Nat.shiftRight_eq_div_pow _ 5

theorem tagOf_lt (b : Byte) : tagOf b < 8 := by
  have := b.isLt
  rw [tagOf_eq_div]
  omega

theorem low_five_eq_mod (n : Nat) : n &&& 0x1F = n % 32 := Nat.and_two_pow_sub_one_eq_mod n 5

theorem field21_eq (b1 b2 b3 : Byte) :
    field21 b1 b2 b3 = b1.toNat % 32 * 65536 + b2.toNat * 256 + b3.toNat := by
  have h2 := b2.isLt
  have h3 := b3.isLt
  have hor : b2.toNat <<< 8 ||| b3.toNat = b2.toNat * 256 + b3.toNat := by
    rw [← Nat.shiftLeft_add_eq_or_of_lt (by omega), Nat.shiftLeft_eq]
  rw [field21, Nat.or_assoc, hor, low_five_eq_mod, ← Nat.shiftLeft_add_eq_or_of_lt (by omega), Nat.shiftLeft_eq]
  omega

theorem field29_eq (b1 b2 b3 b4 : Byte) :
    field29 b1 b2 b3 b4 = b1.toNat % 32 * 16777216 + b2.toNat * 65536 + b3.toNat * 256 + b4.toNat := by
  have h2 := b2.isLt
  have h3 := b3.isLt
  have h4 := b4.isLt
  have hor : b3.toNat <<< 8 ||| b4.toNat = b3.toNat * 256 + b4.toNat := by
    rw [← Nat.shiftLeft_add_eq_or_of_lt (by omega), Nat.shiftLeft_eq]
  have hor2 : b2.toNat <<< 16 ||| (b3.toNat * 256 + b4.toNat) = b2.toNat * 65536 + (b3.toNat * 256 + b4.toNat) := by
    rw [← Nat.shiftLeft_add_eq_or_of_lt (by omega), Nat.shiftLeft_eq]
  rw [field29, Nat.or_assoc, Nat.or_assoc, hor, hor2, low_five_eq_mod, ← Nat.shiftLeft_add_eq_or_of_lt (by omega),
    Nat.shiftLeft_eq]
  omega

/-- A first byte's value, from its tag and low five bits. -/
theorem tagByte_toNat (tag top : Nat) (h : tag < 8) : (tagByte tag top).toNat = tag * 32 + top % 32 := by
  rw [tagByte, BitVec.toNat_ofNat]
  omega

theorem tagOf_tagByte (tag top : Nat) (h : tag < 8) : tagOf (tagByte tag top) = tag := by
  rw [tagOf_eq_div, tagByte_toNat tag top h]
  omega

theorem byteOf_toNat (v lo : Nat) : (byteOf v lo).toNat = v / 2 ^ lo % 256 := by
  rw [byteOf, BitVec.toNat_ofNat]

/-- What the decoder does once it has the first byte: the one equation of unpack. -/
theorem unpack_of_first {get : Nat → Except Error Byte} {b1 : Byte} (h : get 1 = .ok b1) :
    unpack get = match tagOf b1 with
      | 1 => unpackSqrt get b1
      | 2 => .ok (.read (b1.toNat % 32), 1)
      | 3 => unpackLoad get b1
      | 7 => unpackStore get b1
      | _ => .error (.unknownOpcode b1) := by
  rw [unpack, h, ← low_five_eq_mod]
  rfl

theorem unpack_of_first_error {get : Nat → Except Error Byte} {e : Error} (h : get 1 = .error e) :
    unpack get = .error e := by
  rw [unpack, h]
  rfl

theorem unpackLoad_ok {get : Nat → Except Error Byte} {b1 b2 b3 : Byte} (h2 : get 2 = .ok b2) (h3 : get 3 = .ok b3) :
    unpackLoad get b1 = .ok (.load (field21 b1 b2 b3), 4) := by
  rw [unpackLoad, h2, h3]
  rfl

theorem unpackStore_ok {get : Nat → Except Error Byte} {b1 b2 b3 : Byte} (h2 : get 2 = .ok b2)
    (h3 : get 3 = .ok b3) : unpackStore get b1 = .ok (.store (field21 b1 b2 b3), 4) := by
  rw [unpackStore, h2, h3]
  rfl

theorem unpackSqrt_ok {get : Nat → Except Error Byte} {b1 b2 b3 b4 b5 : Byte} (h2 : get 2 = .ok b2)
    (h3 : get 3 = .ok b3) (h4 : get 4 = .ok b4) (h5 : get 5 = .ok b5) :
    unpackSqrt get b1 = .ok (.sqrt (field29 b1 b2 b3 b4) b5.toNat, 5) := by
  rw [unpackSqrt, h2, h3, h4, h5]
  rfl

theorem unpackLoad_inv {get : Nat → Except Error Byte} {b1 : Byte} {r : Instr × Nat}
    (h : unpackLoad get b1 = .ok r) :
    ∃ b2 b3, get 2 = .ok b2 ∧ get 3 = .ok b3 ∧ r = (.load (field21 b1 b2 b3), 4) := by
  cases h2 : get 2 with
  | error e => rw [unpackLoad, h2] at h; cases h
  | ok b2 =>
    cases h3 : get 3 with
    | error e => rw [unpackLoad, h2, h3] at h; cases h
    | ok b3 =>
      rw [unpackLoad_ok h2 h3] at h
      exact ⟨b2, b3, rfl, rfl, by injection h with h; exact h.symm⟩

theorem unpackStore_inv {get : Nat → Except Error Byte} {b1 : Byte} {r : Instr × Nat}
    (h : unpackStore get b1 = .ok r) :
    ∃ b2 b3, get 2 = .ok b2 ∧ get 3 = .ok b3 ∧ r = (.store (field21 b1 b2 b3), 4) := by
  cases h2 : get 2 with
  | error e => rw [unpackStore, h2] at h; cases h
  | ok b2 =>
    cases h3 : get 3 with
    | error e => rw [unpackStore, h2, h3] at h; cases h
    | ok b3 =>
      rw [unpackStore_ok h2 h3] at h
      exact ⟨b2, b3, rfl, rfl, by injection h with h; exact h.symm⟩

theorem unpackSqrt_inv {get : Nat → Except Error Byte} {b1 : Byte} {r : Instr × Nat}
    (h : unpackSqrt get b1 = .ok r) :
    ∃ b2 b3 b4 b5, get 2 = .ok b2 ∧ get 3 = .ok b3 ∧ get 4 = .ok b4 ∧ get 5 = .ok b5 ∧
      r = (.sqrt (field29 b1 b2 b3 b4) b5.toNat, 5) := by
  cases h2 : get 2 with
  | error e => rw [unpackSqrt, h2] at h; cases h
  | ok b2 =>
    cases h3 : get 3 with
    | error e => rw [unpackSqrt, h2, h3] at h; cases h
    | ok b3 =>
      cases h4 : get 4 with
      | error e => rw [unpackSqrt, h2, h3, h4] at h; cases h
      | ok b4 =>
        cases h5 : get 5 with
        | error e => rw [unpackSqrt, h2, h3, h4, h5] at h; cases h
        | ok b5 =>
          rw [unpackSqrt_ok h2 h3 h4 h5] at h
          exact ⟨b2, b3, b4, b5, rfl, rfl, rfl, rfl, by injection h with h; exact h.symm⟩

/-- Everything the decoder can answer when it answers an instruction (R412 to R415). -/
theorem unpack_inv {get : Nat → Except Error Byte} {r : Instr × Nat} (h : unpack get = .ok r) :
    ∃ b1, get 1 = .ok b1 ∧
      ((tagOf b1 = 1 ∧ unpackSqrt get b1 = .ok r) ∨ (tagOf b1 = 2 ∧ r = (.read (b1.toNat % 32), 1)) ∨
        (tagOf b1 = 3 ∧ unpackLoad get b1 = .ok r) ∨ (tagOf b1 = 7 ∧ unpackStore get b1 = .ok r)) := by
  cases h1 : get 1 with
  | error e => rw [unpack_of_first_error h1] at h; cases h
  | ok b1 =>
    rw [unpack_of_first h1] at h
    refine ⟨b1, rfl, ?_⟩
    split at h
    · exact .inl ⟨‹_›, h⟩
    · exact .inr (.inl ⟨‹_›, by injection h with h; exact h.symm⟩)
    · exact .inr (.inr (.inl ⟨‹_›, h⟩))
    · exact .inr (.inr (.inr ⟨‹_›, h⟩))
    · cases h

/-- The decoder answers well-formed instructions only, each with its own width. -/
theorem unpack_wellFormed {get : Nat → Except Error Byte} {i : Instr} {len : Nat} (h : unpack get = .ok (i, len)) :
    i.wellFormed = true ∧ len = i.width := by
  obtain ⟨b1, -, ⟨-, h⟩ | ⟨-, h⟩ | ⟨-, h⟩ | ⟨-, h⟩⟩ := unpack_inv h
  · obtain ⟨b2, b3, b4, b5, -, -, -, -, h⟩ := unpackSqrt_inv h
    cases h
    have := b2.isLt
    have := b3.isLt
    have := b4.isLt
    refine ⟨?_, rfl⟩
    simp only [Instr.wellFormed, Bool.and_eq_true, decide_eq_true_eq, field29_eq]
    exact ⟨by omega, b5.isLt⟩
  · cases h
    refine ⟨?_, rfl⟩
    simp only [Instr.wellFormed, decide_eq_true_eq]
    omega
  · obtain ⟨b2, b3, -, -, h⟩ := unpackLoad_inv h
    cases h
    have := b2.isLt
    have := b3.isLt
    refine ⟨?_, rfl⟩
    simp only [Instr.wellFormed, decide_eq_true_eq, field21_eq]
    omega
  · obtain ⟨b2, b3, -, -, h⟩ := unpackStore_inv h
    cases h
    have := b2.isLt
    have := b3.isLt
    refine ⟨?_, rfl⟩
    simp only [Instr.wellFormed, decide_eq_true_eq, field21_eq]
    omega

end Sys2Proof
end

