-- ==== Sys2Proof/Laws/State.lean ====
section
/-! SUPPORT. Each field after each update of the state, so that no proof unfolds a record update. -/

namespace Sys2Proof.Machine

@[simp] theorem State.setMem_mem (s : State) (m : Memory) : (s.setMem m).mem = m := rfl
@[simp] theorem State.setMem_stack (s : State) (m : Memory) : (s.setMem m).stack = s.stack := rfl
@[simp] theorem State.setMem_ip (s : State) (m : Memory) : (s.setMem m).ip = s.ip := rfl
@[simp] theorem State.setMem_plen (s : State) (m : Memory) : (s.setMem m).plen = s.plen := rfl
@[simp] theorem State.setMem_status (s : State) (m : Memory) : (s.setMem m).status = s.status := rfl
@[simp] theorem State.setMem_config (s : State) (m : Memory) : (s.setMem m).config = s.config := rfl

@[simp] theorem State.setStack_mem (s : State) (st : List Nat) : (s.setStack st).mem = s.mem := rfl
@[simp] theorem State.setStack_stack (s : State) (st : List Nat) : (s.setStack st).stack = st := rfl
@[simp] theorem State.setStack_ip (s : State) (st : List Nat) : (s.setStack st).ip = s.ip := rfl
@[simp] theorem State.setStack_plen (s : State) (st : List Nat) : (s.setStack st).plen = s.plen := rfl
@[simp] theorem State.setStack_status (s : State) (st : List Nat) : (s.setStack st).status = s.status := rfl
@[simp] theorem State.setStack_config (s : State) (st : List Nat) : (s.setStack st).config = s.config := rfl

@[simp] theorem State.setIp_mem (s : State) (n : Nat) : (s.setIp n).mem = s.mem := rfl
@[simp] theorem State.setIp_stack (s : State) (n : Nat) : (s.setIp n).stack = s.stack := rfl
@[simp] theorem State.setIp_ip (s : State) (n : Nat) : (s.setIp n).ip = n := rfl
@[simp] theorem State.setIp_plen (s : State) (n : Nat) : (s.setIp n).plen = s.plen := rfl
@[simp] theorem State.setIp_status (s : State) (n : Nat) : (s.setIp n).status = s.status := rfl
@[simp] theorem State.setIp_config (s : State) (n : Nat) : (s.setIp n).config = s.config := rfl

@[simp] theorem State.setStatus_mem (s : State) (st : Status) : (s.setStatus st).mem = s.mem := rfl
@[simp] theorem State.setStatus_stack (s : State) (st : Status) : (s.setStatus st).stack = s.stack := rfl
@[simp] theorem State.setStatus_ip (s : State) (st : Status) : (s.setStatus st).ip = s.ip := rfl
@[simp] theorem State.setStatus_plen (s : State) (st : Status) : (s.setStatus st).plen = s.plen := rfl
@[simp] theorem State.setStatus_status (s : State) (st : Status) : (s.setStatus st).status = st := rfl
@[simp] theorem State.setStatus_config (s : State) (st : Status) : (s.setStatus st).config = s.config := rfl

@[simp] theorem State.errorHalt_mem (s : State) (e : Error) : (s.errorHalt e).mem = s.mem := rfl
@[simp] theorem State.errorHalt_stack (s : State) (e : Error) : (s.errorHalt e).stack = s.stack := rfl
@[simp] theorem State.errorHalt_ip (s : State) (e : Error) : (s.errorHalt e).ip = s.ip := rfl
@[simp] theorem State.errorHalt_plen (s : State) (e : Error) : (s.errorHalt e).plen = s.plen := rfl
@[simp] theorem State.errorHalt_status (s : State) (e : Error) : (s.errorHalt e).status = .error { error := e, loc := s.ip } := rfl
@[simp] theorem State.errorHalt_config (s : State) (e : Error) : (s.errorHalt e).config = s.config := rfl

@[simp] theorem State.advance_mem (s : State) (len : Nat) : (s.advance len).mem = s.mem := rfl
@[simp] theorem State.advance_stack (s : State) (len : Nat) : (s.advance len).stack = s.stack := rfl
@[simp] theorem State.advance_ip (s : State) (len : Nat) : (s.advance len).ip = s.ip + len := rfl
@[simp] theorem State.advance_plen (s : State) (len : Nat) : (s.advance len).plen = s.plen := rfl
@[simp] theorem State.advance_status (s : State) (len : Nat) : (s.advance len).status = s.status := rfl
@[simp] theorem State.advance_config (s : State) (len : Nat) : (s.advance len).config = s.config := rfl

@[simp] theorem State.pushed_mem (s : State) (v : Nat) : (s.pushed v).mem = s.mem := rfl
@[simp] theorem State.pushed_stack (s : State) (v : Nat) : (s.pushed v).stack = v :: s.stack := rfl
@[simp] theorem State.pushed_ip (s : State) (v : Nat) : (s.pushed v).ip = s.ip := rfl
@[simp] theorem State.pushed_plen (s : State) (v : Nat) : (s.pushed v).plen = s.plen := rfl
@[simp] theorem State.pushed_status (s : State) (v : Nat) : (s.pushed v).status = s.status := rfl
@[simp] theorem State.pushed_config (s : State) (v : Nat) : (s.pushed v).config = s.config := rfl

/-- States are equal when their fields are. -/
theorem State.ext_fields {s t : State} (hm : s.mem = t.mem) (hs : s.stack = t.stack) (hi : s.ip = t.ip)
    (hp : s.plen = t.plen) (hst : s.status = t.status) (hc : s.config = t.config) : s = t := by
  cases s
  cases t
  simp_all

end Sys2Proof.Machine
end

