-- ==== Sys2Proof/Laws/Memory.lean ====
section
/-! SUPPORT. The laws of memory: what a read finds after a write, and that every operation keeps the canonical form. -/

namespace Sys2Proof.Machine

@[simp] theorem Memory.read_nil (a : Nat) : Memory.read [] a = Memory.unlisted := rfl

theorem Memory.read_entry (b : Nat) (w : Byte) (m : Memory) (a : Nat) :
    Memory.read ((b, w) :: m) a = if b < a then Memory.read m a else if b = a then w else Memory.unlisted := rfl

/-- In a list whose entries all lie past an address, that cell is unlisted. -/
theorem Memory.read_of_wfFrom {lo : Nat} {m : Memory} (h : Memory.wfFrom lo m = true) {a : Nat} (ha : a < lo) :
    Memory.read m a = Memory.unlisted := by
  cases m with
  | nil => rfl
  | cons c m =>
    obtain ⟨b, w⟩ := c
    simp only [Memory.wfFrom, Bool.and_eq_true, decide_eq_true_eq] at h
    rw [Memory.read_entry, if_neg (by omega), if_neg (by omega)]

/-- A read through an entry put in front, when everything read past that entry lies past it. -/
theorem Memory.read_cons (a : Nat) (v : Byte) (m : Memory) (b : Nat)
    (h : b ≤ a → Memory.read m b = Memory.unlisted) :
    Memory.read (Memory.cons a v m) b = if b = a then v else Memory.read m b := by
  unfold Memory.cons
  split
  · rename_i hv
    split
    · rename_i hb
      rw [h (by omega), hv]
    · rfl
  · rw [Memory.read_entry]
    split
    · rw [if_neg (by omega)]
    · split
      · rw [if_pos (by omega)]
      · rw [if_neg (by omega), h (by omega)]

/-- Dropping the entries up to `a` changes no read past `a`, and leaves the cells up to `a` unlisted. -/
theorem Memory.read_dropWhile (m : Memory) (a b : Nat) :
    Memory.read (m.dropWhile fun c => decide (c.1 ≤ a)) b = if b ≤ a then Memory.unlisted else Memory.read m b := by
  induction m with
  | nil => simp
  | cons c m ih =>
    obtain ⟨d, w⟩ := c
    by_cases hd : d ≤ a
    · rw [List.dropWhile_cons_of_pos (by simpa using hd), ih]
      split
      · rfl
      · rw [Memory.read_entry, if_pos (by omega)]
    · rw [List.dropWhile_cons_of_neg (by simpa using hd)]
      split
      · rw [Memory.read_entry, if_neg (by omega), if_neg (by omega)]
      · rfl

/-- A write gives the written cell its value and leaves every other cell alone (R206). -/
theorem Memory.read_set (m : Memory) (a : Nat) (v : Byte) (b : Nat) :
    Memory.read (Memory.set m a v) b = if b = a then v else Memory.read m b := by
  induction m with
  | nil => exact Memory.read_cons a v [] b fun _ => rfl
  | cons c m ih =>
    obtain ⟨d, w⟩ := c
    simp only [Memory.set]
    split
    · rw [Memory.read_entry, Memory.read_entry, ih]
      by_cases hb : b = a
      · subst hb
        rw [if_pos ‹_›, if_pos rfl, if_pos rfl]
      · rw [if_neg hb, if_neg hb]
    · split
      · rename_i hd
        rw [Memory.read_cons _ _ _ _ fun hb => by rw [Memory.read_dropWhile, if_pos hb]]
        split
        · rfl
        · rw [Memory.read_dropWhile, Memory.read_entry]
          split
          · rw [if_neg (by omega), if_neg (by omega)]
          · rw [if_pos (by omega)]
      · exact Memory.read_cons _ _ _ _ fun hb => by rw [Memory.read_entry, if_neg (by omega), if_neg (by omega)]

/-- Raising the bound a canonical list starts from, past entries it does not have. -/
theorem Memory.wfFrom_mono {lo lo' : Nat} (hle : lo' ≤ lo) {m : Memory} (h : Memory.wfFrom lo m = true) :
    Memory.wfFrom lo' m = true := by
  cases m with
  | nil => rfl
  | cons c m =>
    simp only [Memory.wfFrom, Bool.and_eq_true, decide_eq_true_eq] at h ⊢
    exact ⟨⟨⟨by omega, h.1.1.2⟩, h.1.2⟩, h.2⟩

theorem Memory.wfFrom_cons {lo a : Nat} {v : Byte} {m : Memory} (hlo : lo ≤ a) (ha : a < memSize)
    (h : Memory.wfFrom (a + 1) m = true) : Memory.wfFrom lo (Memory.cons a v m) = true := by
  unfold Memory.cons
  split
  · exact Memory.wfFrom_mono (by omega) h
  · rename_i hv
    simp only [Memory.wfFrom, Bool.and_eq_true, decide_eq_true_eq]
    exact ⟨⟨⟨hlo, ha⟩, hv⟩, h⟩

/-- In a canonical list the entries after one for `a` all lie past `a`, so none is dropped. -/
theorem Memory.dropWhile_wfFrom {a : Nat} {m : Memory} (h : Memory.wfFrom (a + 1) m = true) :
    (m.dropWhile fun c => decide (c.1 ≤ a)) = m := by
  cases m with
  | nil => rfl
  | cons c m =>
    simp only [Memory.wfFrom, Bool.and_eq_true, decide_eq_true_eq] at h
    exact List.dropWhile_cons_of_neg (by simpa using by omega)

theorem Memory.set_wfFrom {lo a : Nat} {v : Byte} {m : Memory} (hlo : lo ≤ a) (ha : a < memSize)
    (h : Memory.wfFrom lo m = true) : Memory.wfFrom lo (Memory.set m a v) = true := by
  induction m generalizing lo with
  | nil => exact Memory.wfFrom_cons hlo ha rfl
  | cons c m ih =>
    obtain ⟨d, w⟩ := c
    have hc := h
    simp only [Memory.wfFrom, Bool.and_eq_true, decide_eq_true_eq] at hc
    simp only [Memory.set]
    split
    · simp only [Memory.wfFrom, Bool.and_eq_true, decide_eq_true_eq]
      exact ⟨hc.1, ih (by omega) hc.2⟩
    · split
      · rename_i hd
        subst hd
        rw [Memory.dropWhile_wfFrom hc.2]
        exact Memory.wfFrom_cons hlo ha hc.2
      · refine Memory.wfFrom_cons hlo ha ?_
        simp only [Memory.wfFrom, Bool.and_eq_true, decide_eq_true_eq]
        exact ⟨⟨⟨by omega, hc.1.1.2⟩, hc.1.2⟩, hc.2⟩

/-- Writing a cell of memory keeps the canonical form. -/
theorem Memory.set_wf {a : Nat} {v : Byte} {m : Memory} (ha : a < memSize) (h : Memory.wf m = true) :
    Memory.wf (Memory.set m a v) = true := Memory.set_wfFrom (Nat.zero_le a) ha h

/-- The memory right after reset is canonical. -/
theorem State.reset_mem_wf : Memory.wf State.reset.mem = true := rfl

theorem Memory.filled_wfFrom (fill : Nat → Byte) (a n : Nat) (h : a + n ≤ memSize) :
    Memory.wfFrom a (Memory.filled fill a n) = true := by
  induction n generalizing a with
  | zero => rfl
  | succ n ih => exact Memory.wfFrom_cons le_rfl (by omega) (ih (a + 1) (by omega))

theorem Memory.ofBytes_append_wfFrom (a : Nat) (bs : List Byte) (m : Memory) (h : a + bs.length ≤ memSize)
    (hm : Memory.wfFrom (a + bs.length) m = true) : Memory.wfFrom a (Memory.ofBytes a bs ++ m) = true := by
  induction bs generalizing a with
  | nil => exact hm
  | cons b bs ih =>
    simp only [List.length_cons] at h hm
    have hrest := ih (a + 1) (by omega) (Memory.wfFrom_mono (by omega) hm)
    rw [Memory.ofBytes, show Memory.cons a b (Memory.ofBytes (a + 1) bs) ++ m
        = Memory.cons a b (Memory.ofBytes (a + 1) bs ++ m) by unfold Memory.cons; split <;> rfl]
    exact Memory.wfFrom_cons le_rfl (by omega) hrest

/-- The memory a launch builds is canonical. -/
theorem Memory.image_wf (fill : Nat → Byte) (blob : List Byte) (h : blob.length ≤ memSize) :
    Memory.wf (Memory.image fill blob) = true :=
  Memory.ofBytes_append_wfFrom 0 blob _ (by omega)
    (Memory.wfFrom_mono (by omega) (Memory.filled_wfFrom fill blob.length _ (by omega)))

/-- Under the reference fill a launch lists the blob's cells alone, so that small programs stay small data. -/
theorem Memory.filled_unlisted (a n : Nat) : Memory.filled (fun _ => Memory.unlisted) a n = [] := by
  induction n generalizing a with
  | zero => rfl
  | succ n ih => rw [Memory.filled, ih]; rfl

theorem Memory.image_unlisted (blob : List Byte) :
    Memory.image (fun _ => Memory.unlisted) blob = Memory.ofBytes 0 blob := by
  rw [Memory.image, Memory.filled_unlisted, List.append_nil]

end Sys2Proof.Machine
end

