-- ==== Sys2Proof/Laws/Ops.lean ====
section
/-! SUPPORT. For each shared operation, once, everything it can do. -/

namespace Sys2Proof.Machine

theorem pop_eq_ok {s t : State} {v : Nat} :
    pop s = .ok (v, t) ↔ ∃ rest, s.stack = v :: rest ∧ t = s.setStack rest := by
  unfold pop
  split <;> rename_i hs <;> rw [hs]
  · simp
  · constructor
    · intro h
      cases h
      exact ⟨_, rfl, rfl⟩
    · rintro ⟨rest, h, rfl⟩
      cases h
      rfl

theorem pop_eq_error {s : State} {e : Error} : pop s = .error e ↔ s.stack = [] ∧ e = .stackUnderflow := by
  unfold pop
  split <;> rename_i hs <;> rw [hs]
  · constructor
    · intro h
      cases h
      exact ⟨rfl, rfl⟩
    · rintro ⟨-, rfl⟩
      rfl
  · simp

theorem push_eq_ok {s t : State} {v : Nat} : push v s = .ok t ↔ s.hasRoom = true ∧ t = s.pushed v := by
  unfold push
  split
  · simp only [Except.ok.injEq]
    exact ⟨fun h => ⟨‹_›, h.symm⟩, fun h => h.2.symm⟩
  · simp only [reduceCtorEq, false_iff, not_and]
    exact fun h => absurd h ‹_›

theorem push_eq_error {s : State} {v : Nat} {e : Error} :
    push v s = .error e ↔ s.hasRoom = false ∧ e = .stackOverflow := by
  unfold push
  split
  · simp_all
  · simp only [Except.error.injEq]
    exact ⟨fun h => ⟨Bool.eq_false_iff.2 ‹_›, h.symm⟩, fun h => h.2.symm⟩

/-- Room for one more value, in terms of STACK_DEPTH (R607). -/
theorem hasRoom_iff {s : State} :
    s.hasRoom = true ↔ ∀ d, s.config.stackDepth = some d → s.stack.length < d := by
  unfold State.hasRoom
  split <;> rename_i h <;> simp [h]

theorem memRead_eq_ok {s : State} {a : Nat} {b : Byte} :
    memRead s a = .ok b ↔ a < memSize ∧ b = Memory.read s.mem a := by
  unfold memRead
  split <;> simp_all [eq_comm]

theorem memRead_eq_error {s : State} {a : Nat} {e : Error} :
    memRead s a = .error e ↔ memSize ≤ a ∧ e = .outOfBounds a := by
  unfold memRead
  split
  · simp only [reduceCtorEq, false_iff, not_and]
    omega
  · simp only [Except.error.injEq]
    exact ⟨fun h => ⟨by omega, h.symm⟩, fun h => h.2.symm⟩

theorem memWrite_eq_ok {s t : State} {a v : Nat} :
    memWrite a v s = .ok t ↔
      a < memSize ∧ v ≤ 255 ∧ t = s.setMem (Memory.set s.mem a (BitVec.ofNat 8 v)) := by
  unfold memWrite
  split
  · simp only [reduceCtorEq, false_iff, not_and]
    omega
  · split
    · simp only [reduceCtorEq, false_iff, not_and]
      omega
    · simp only [Except.ok.injEq]
      exact ⟨fun h => ⟨by omega, by omega, h.symm⟩, fun h => h.2.2.symm⟩

theorem memWrite_eq_error {s : State} {a v : Nat} {e : Error} :
    memWrite a v s = .error e ↔
      (memSize ≤ a ∧ e = .outOfBounds a) ∨ (a < memSize ∧ 255 < v ∧ e = .cellOverflow v) := by
  unfold memWrite
  split
  · simp only [Except.error.injEq]
    exact ⟨fun h => .inl ⟨‹_›, h.symm⟩, fun h => h.elim (fun h => h.2.symm) fun h => absurd h.1 (by omega)⟩
  · split
    · simp only [Except.error.injEq]
      exact ⟨fun h => .inr ⟨by omega, ‹_›, h.symm⟩, fun h => h.elim (fun h => absurd h.1 ‹_›) fun h => h.2.2.symm⟩
    · simp only [reduceCtorEq, false_iff]
      omega

theorem checkedSqrt_nat (v : Nat) : checkedSqrt v = .ok (isqrt v) := by
  unfold checkedSqrt
  rw [if_neg (by omega), Int.toNat_natCast]

/-- A root is at most the bound it was searched below, and its square is at most the value. -/
theorem isqrtUpTo_le (v n : Nat) : isqrtUpTo v n ≤ n := by
  induction n with
  | zero => exact le_rfl
  | succ n ih =>
    unfold isqrtUpTo
    split
    · exact le_rfl
    · omega

theorem isqrtUpTo_sq_le (v n : Nat) : isqrtUpTo v n * isqrtUpTo v n ≤ v := by
  induction n with
  | zero => exact Nat.zero_le v
  | succ n ih =>
    unfold isqrtUpTo
    split
    · assumption
    · exact ih

/-- The root of a byte is at most 15, so SQRT never overflows a cell (R510). -/
theorem isqrt_byte_le (b : Byte) : isqrt b.toNat ≤ 15 := by
  have hb := b.isLt
  have hsq := isqrtUpTo_sq_le b.toNat b.toNat
  by_contra hlt
  have : 16 * 16 ≤ isqrt b.toNat * isqrt b.toNat := Nat.mul_le_mul (by omega) (by omega)
  unfold isqrt at this
  omega

end Sys2Proof.Machine
end

