-- ==== Sys2Proof/Laws/PerInstr.lean ====
section
/-! SUPPORT. The per-instruction family Layout: the encoding of a well-formed instruction is as long as the
instruction is wide, and carries its tag in its first byte (R301, R302). -/

namespace Sys2Proof.Laws.Layout

/-- The instruction's bytes are its width long, and the first one's tag selects that length (R301, R318). -/
def Statement (i : Instr) : Prop :=
  (encode i).length = i.width ∧ ∃ b1 rest, encode i = b1 :: rest ∧ tagOf b1 = i.tag ∧
    lengthOfTag (tagOf b1) = some i.width

/-- A first byte made for a known tag selects that tag's length. -/
theorem first_byte {tag top len : Nat} (h : tag < 8) (hl : lengthOfTag tag = some len) :
    tagOf (tagByte tag top) = tag ∧ lengthOfTag (tagOf (tagByte tag top)) = some len := by
  rw [tagOf_tagByte tag top h]
  exact ⟨rfl, hl⟩

theorem load (const : Nat) : Statement (.load const) := ⟨rfl, _, _, rfl, first_byte (by decide) rfl⟩

theorem read (offset : Nat) : Statement (.read offset) := ⟨rfl, _, _, rfl, first_byte (by decide) rfl⟩

theorem store (addr : Nat) : Statement (.store addr) := ⟨rfl, _, _, rfl, first_byte (by decide) rfl⟩

theorem sqrt (addr offset : Nat) : Statement (.sqrt addr offset) := ⟨rfl, _, _, rfl, first_byte (by decide) rfl⟩

end Sys2Proof.Laws.Layout
end

