-- ==== Sys2Proof/Laws/Step.lean ====
section
/-! SUPPORT. What an instruction and a step can do, said once. -/

namespace Sys2Proof.Machine

/-- Every instruction answers a next state, of one of three shapes: the error halt with the stack as it was, the
error halt after the pop, or success with the memory and stack replaced and ip past the instruction. -/
theorem exec_shape (i : Instr) (s : State) :
    (∃ e, exec i s = .next (s.errorHalt e)) ∨
      (∃ e v rest, s.stack = v :: rest ∧ exec i s = .next ((s.setStack rest).errorHalt e)) ∨
      (∃ m st, exec i s = .next (((s.setMem m).setStack st).advance i.width)) := by
  cases i with
  | load const =>
    simp only [exec, execLoad]
    split
    · exact .inl ⟨_, rfl⟩
    · rename_i s1 h
      obtain ⟨-, rfl⟩ := push_eq_ok.1 h
      exact .inr (.inr ⟨s.mem, const :: s.stack, rfl⟩)
  | read offset =>
    simp only [exec, execRead]
    split
    · exact .inl ⟨_, rfl⟩
    · rename_i base s1 h
      obtain ⟨rest, hs, rfl⟩ := pop_eq_ok.1 h
      split
      · exact .inr (.inl ⟨_, base, rest, hs, rfl⟩)
      · rename_i v _
        exact .inr (.inr ⟨s.mem, v.toNat :: rest, rfl⟩)
  | store addr =>
    simp only [exec, execStore]
    split
    · exact .inl ⟨_, rfl⟩
    · rename_i v s1 h
      obtain ⟨rest, hs, rfl⟩ := pop_eq_ok.1 h
      split
      · exact .inr (.inl ⟨_, v, rest, hs, rfl⟩)
      · rename_i s2 h2
        obtain ⟨-, -, rfl⟩ := memWrite_eq_ok.1 h2
        exact .inr (.inr ⟨_, rest, rfl⟩)
  | sqrt addr offset =>
    simp only [exec, execSqrt]
    split
    · exact .inl ⟨_, rfl⟩
    · rename_i base s1 h
      obtain ⟨rest, hs, rfl⟩ := pop_eq_ok.1 h
      split
      · exact .inr (.inl ⟨_, base, rest, hs, rfl⟩)
      · split
        · exact .inr (.inl ⟨_, base, rest, hs, rfl⟩)
        · split
          · exact .inr (.inl ⟨_, base, rest, hs, rfl⟩)
          · rename_i s2 h2
            obtain ⟨-, -, rfl⟩ := memWrite_eq_ok.1 h2
            exact .inr (.inr ⟨_, rest, rfl⟩)

/-- Everything a step can do when it answers a next state (R458). -/
theorem step_cases {s t : State} (h : step s = .next t) :
    s.status = .running ∧
      ((s.plen ≤ s.ip ∧ t = s.setStatus .halted) ∨
        (s.ip < s.plen ∧ ∃ e, fetch s = .error e ∧ t = s.errorHalt e) ∨
        (s.ip < s.plen ∧ ∃ i, fetch s = .ok (i, i.width) ∧ i.wellFormed = true ∧ exec i s = .next t)) := by
  unfold step cycle at h
  split at h
  · refine ⟨‹_›, ?_⟩
    unfold runningStep at h
    split at h
    · cases h
      exact .inl ⟨‹_›, rfl⟩
    · split at h
      · cases h
        exact .inr (.inl ⟨by omega, _, ‹_›, rfl⟩)
      · rename_i i len hf
        obtain ⟨hw, rfl⟩ := unpack_wellFormed hf
        exact .inr (.inr ⟨by omega, i, hf, hw, h⟩)
  · cases h
  · cases h

/-- Laying bytes for the fetch keeps the canonical form. -/
theorem placeBytes_wf (m : Memory) (a : Nat) (bs : List Byte) (h : Memory.wf m = true) :
    Memory.wf (placeBytes m a bs) = true := by
  induction bs generalizing m a with
  | nil => exact h
  | cons b bs ih =>
    unfold placeBytes
    split
    · exact ih _ _ (Memory.set_wf ‹_› h)
    · exact h

end Sys2Proof.Machine
end

