-- ==== Sys2Proof/Laws/Session.lean ====
section
/-! SUPPORT. What a launch can answer, and that reset is the launch of the empty program. -/

namespace Sys2Proof.Machine

theorem launch_eq_some {config : Config} {fill : Nat → Byte} {blob : List Byte} {s : State} :
    State.launch config fill blob = some s ↔ blob.length ≤ memSize ∧
      s = { mem := Memory.image fill blob, stack := [], ip := 0, plen := blob.length, status := .running,
            config := config } := by
  unfold State.launch
  split
  · simp only [Option.some.injEq]
    exact ⟨fun h => ⟨‹_›, h.symm⟩, fun h => h.2.symm⟩
  · simp only [reduceCtorEq, false_iff, not_and]
    exact fun h => absurd h ‹_›

/-- The state right after reset is the start of a run with the empty blob and the reference fill (R119, R702). -/
theorem reset_is_the_empty_launch :
    State.launch Config.reference (fun _ => Memory.unlisted) [] = some State.reset :=
  launch_eq_some.2 ⟨Nat.zero_le _, by rw [Memory.image_unlisted]; rfl⟩

end Sys2Proof.Machine
end

