-- ==== Sys2Proof/Tests/Slice0.lean ====
section
/-! SUPPORT. Tests whose expected results come from the spec's formats and test vectors (spec/30, spec/95), and for every
statement with hypotheses a witness: a concrete state and operands that meet them all. -/

namespace Sys2Proof.Tests

open Sys2Proof Sys2Proof.Machine

/-! ### Helpers -/

/-- The next state of an outcome, if it has one. -/
def nextOf : Outcome → Option State
  | .next s => some s
  | _       => none

/-- A running state that holds a program at address 0, with a stack. -/
def started (code : List Byte) (stack : List Nat) : State :=
  { State.reset with mem := Memory.ofBytes 0 code, stack := stack, plen := code.length }

/-- A running state whose program fills memory, at a given ip, with some bytes there. -/
def atTop (ip : Nat) (code : List Byte) (stack : List Nat) : State :=
  { State.reset with mem := Memory.ofBytes ip code, stack := stack, ip := ip, plen := 65536 }

/-- The state with its STACK_DEPTH set. -/
def bounded (s : State) (d : Nat) : State := { s with config := { s.config with stackDepth := some d } }

/-- The error record a state stopped with. -/
def errorOf (s : State) : Option ErrorRecord :=
  match s.status with
  | .error r => some r
  | _        => none

/-! ### Well-formedness: one ill-formed term for each check -/

theorem test_wf_load : Instr.wellFormed (.load 0x1FFFFF) = true ∧ Instr.wellFormed (.load 0x200000) = false := by decide
theorem test_wf_read : Instr.wellFormed (.read 31) = true ∧ Instr.wellFormed (.read 32) = false := by decide
theorem test_wf_store : Instr.wellFormed (.store 0x1FFFFF) = true ∧ Instr.wellFormed (.store 0x200000) = false := by
  decide
theorem test_wf_sqrt_addr : Instr.wellFormed (.sqrt 0x1FFFFFFF 0) = true ∧ Instr.wellFormed (.sqrt 0x20000000 0) = false := by
  decide
theorem test_wf_sqrt_offset : Instr.wellFormed (.sqrt 0 255) = true ∧ Instr.wellFormed (.sqrt 0 256) = false := by decide
theorem test_packable_sqrt : Instr.packable (.sqrt 0x1FFFFFF 255) = true ∧ Instr.packable (.sqrt 0x2000000 0) = false := by
  decide

/-! ### Decoding: words written out bit by bit from R303 to R306 -/

theorem test_decode_load : unpackAt [0b01110101#8, 0b10000001#8, 0b00001111#8, 0b00000000#8] 0
    = .ok (.load 0b101011000000100001111, 4) := by rfl
theorem test_decode_read : unpackAt [0b01010110#8] 0 = .ok (.read 0b10110, 1) := by rfl
theorem test_decode_store : unpackAt [0b11110011#8, 0b01000000#8, 0b11000001#8, 0b10101010#8] 0
    = .ok (.store 0b100110100000011000001, 4) := by rfl
theorem test_decode_sqrt : unpackAt [0b00110001#8, 0b00000010#8, 0b10000000#8, 0b01100000#8, 0b11110000#8] 0
    = .ok (.sqrt 0b10001000000101000000001100000 0b11110000, 5) := by rfl
/-- R416's examples of unknown first bytes. -/
theorem test_decode_unknown : unpackAt [0x1F] 0 = .error (.unknownOpcode 0x1F) ∧
    unpackAt [0x9F] 0 = .error (.unknownOpcode 0x9F) ∧ unpackAt [0xA0] 0 = .error (.unknownOpcode 0xA0) ∧
    unpackAt [0xDF] 0 = .error (.unknownOpcode 0xDF) := ⟨rfl, rfl, rfl, rfl⟩
/-- spec/95 section 2.2: the standalone verdict counts the padding. -/
theorem test_decode_truncated : unpackAt [0x60, 0, 8] 0 = .error (.truncated 0) := rfl
/-- The rows of the opcode table, as the table numbers their words. -/
theorem test_table_words : decodeTableWord 32 0x60000000 = some (.load 0) ∧ decodeTableWord 8 0x40 = some (.read 0) ∧
    decodeTableWord 32 0xE0000000 = some (.store 0) ∧ decodeTableWord 40 0x2000000000 = some (.sqrt 0 0) := by decide

/-! ### Packing: spec/95 section 2.1 -/

theorem test_pack_load : pack (.load 0x200000) = [0x60, 0, 0, 0] ∧ pack (.load 0x3FFFFF) = [0x7F, 0xFF, 0xFF, 0] := by
  decide
theorem test_pack_read : pack (.read 57) = [0x59] ∧ pack (.read 31) = [0x5F] := by decide
theorem test_pack_store : pack (.store 0x200010) = [0xE0, 0, 0x10, 0] ∧ pack (.store 0x1000000) = [0xE0, 0, 0, 0] := by
  decide
theorem test_pack_sqrt : pack (.sqrt 697 24) = [0x20, 0, 2, 0xB9, 0x18] ∧
    pack (.sqrt 0x1FFFFFF 255) = [0x21, 0xFF, 0xFF, 0xFF, 0xFF] := by decide

/-! ### Execution: spec/95 section 2.3, by their numbers there -/

/-- X2. -/
theorem test_load_overflows : (nextOf (exec (.load 1) (bounded (started [] [5]) 1))).map (fun t => (errorOf t, t.stack))
    = some (some { error := .stackOverflow, loc := 0 }, [5]) := by decide
/-- T7: the padding past the top of memory is never read. -/
theorem test_load_at_the_top : (nextOf (step (atTop 65533 [0x60, 0, 1] []))).map (fun t => (t.stack, t.ip, t.status))
    = some ([1], 65537, .running) := by decide
/-- X5. -/
theorem test_read_past_memory : (nextOf (exec (.read 1) (started [] [65535]))).map (fun t => (errorOf t, t.stack))
    = some (some { error := .outOfBounds 65536, loc := 0 }, []) := by decide
/-- X7: READ of its own byte. -/
theorem test_read_itself : (nextOf (step { started [0x60, 0, 0, 0, 0x44] [0] with ip := 4 })).map (fun t => (t.stack, t.ip))
    = some ([0x44], 5) := by decide
/-- X8. -/
theorem test_store_last_cell : (nextOf (exec (.store 65535) (started [] [200]))).map (fun t => (t.mem, t.stack, t.ip))
    = some ([(65535, 200)], [], 4) := by decide
/-- X11. -/
theorem test_store_wide_value : (nextOf (exec (.store 300) (started [] [70000]))).map (fun t => (errorOf t, t.mem))
    = some (some { error := .cellOverflow 70000, loc := 0 }, []) := by decide
/-- X15: the destination is the source. -/
theorem test_sqrt_in_place : (nextOf (exec (.sqrt 7 0) { started [] [7] with mem := [(7, 16)] })).map (fun t => t.mem)
    = some [(7, 4)] := by decide
/-- X18: a destination the packer never writes. -/
theorem test_sqrt_wide_address : (nextOf (step (started [0x3F, 0, 0, 0, 0] [0]))).map errorOf
    = some (some { error := .outOfBounds 0x1F000000, loc := 0 }) := by decide
/-- spec/95 section 2.3, the isqrt table. -/
theorem test_isqrt : isqrt 0 = 0 ∧ isqrt 3 = 1 ∧ isqrt 4 = 2 ∧ isqrt 24 = 4 ∧ isqrt 96 = 9 ∧ isqrt 100 = 10 ∧
    isqrt 224 = 14 ∧ isqrt 225 = 15 := by decide

/-! ### Fetch and the ends of a run: spec/95 section 2.4 -/

/-- T1. -/
theorem test_reset_halts : (nextOf (step State.reset)).map (fun t => (t.status, t.ip)) = some (.halted, 0) := by decide
/-- T2: a program that ends inside an instruction. -/
theorem test_straddling_load : (nextOf (step (started [0x60] []))).map (fun t => (t.stack, t.ip)) = some ([0], 4) := by
  decide
/-- T5. -/
theorem test_unknown_opcode : (nextOf (step (started [0x80] []))).map errorOf
    = some (some { error := .unknownOpcode 0x80, loc := 0 }) := by decide
/-- T6. -/
theorem test_fetch_past_the_top : (nextOf (step (atTop 65532 [0x20] [0]))).map errorOf
    = some (some { error := .outOfBounds 65536, loc := 65532 }) := by decide
/-- A step of an ended run. -/
theorem test_ended_run : step { State.reset with status := .halted } = .fault .runEnded := rfl
/-- The error codes of R601. -/
theorem test_error_codes : (Error.unknownOpcode 0).code = 1 ∧ Error.stackUnderflow.code = 2 ∧
    (Error.outOfBounds 0).code = 3 ∧ (Error.domainError 0).code = 4 ∧ (Error.cellOverflow 0).code = 5 ∧
    Error.stackOverflow.code = 6 ∧ (Error.truncated 0).code = 7 := by decide
/-- A word placed after reset is the instruction the next step runs. -/
theorem test_placed_word : nextOf (step (State.reset.withFetchWord 32 0x60000800))
    = nextOf (exec (.load 8) (State.reset.withFetchWord 32 0x60000800)) := by decide

/-! ### The assembler and the dump: spec/95 L1-1, L1-2 and section 2.5 -/

theorem test_assemble : (assemble [.load 8, .read 25] true) =
    { blob := [0x60, 0, 8, 0, 0x59], trace := some "60 00 08 00 59".toList } := by decide
theorem test_dump_refused : dump State.reset 65530 65536 = .error (.outOfBounds 65536) := rfl
theorem test_dump_empty : dump State.reset 10 9 = .ok [] := rfl
theorem test_dump_rows : dump (started [0x60, 0, 8] []) 0 2 = .ok [(0, 0x60), (1, 0), (2, 8)] := rfl

/-! ### Witnesses: the hypotheses of each statement can all be met -/

theorem witness_DecodeInvertsEncode : (Instr.sqrt 0x1FFFFFFF 255).wellFormed = true := rfl
theorem witness_RoundTripReducesToEffectiveWidth : (Instr.sqrt 0x1FFFFFF 255).packable = true := rfl
theorem witness_RepackGivesCanonicalWordsBack :
    (([0xDF] : List Byte)[0]? = some 0xDF ∧ lengthOfTag (tagOf 0xDF) = none) ∧
    (([0x40] : List Byte)[0]? = some 0x40 ∧ lengthOfTag (tagOf 0x40) = some 1 ∧ 1 ≤ ([0x40] : List Byte).length) ∧
    unpackAt [0x3E, 0, 0, 0, 0] 0 = .ok (.sqrt 0x1E000000 0, ([0x3E, 0, 0, 0, 0] : List Byte).length) :=
  ⟨⟨rfl, rfl⟩, ⟨rfl, rfl, le_rfl⟩, rfl⟩

/-- The byte source that gives these bytes as B1, B2, … and fails after them. -/
def giving (bytes : List Byte) (k : Nat) : Except Error Byte := byteAt bytes 0 k

theorem witness_UnknownTagsAreRejected :
    (giving [0x1F] 1 = .ok 0x1F ∧ (0x1F : Byte).toNat / 32 = 0) ∧ (giving [0x80] 1 = .ok 0x80 ∧ (0x80 : Byte).toNat / 32 = 4) ∧
    (giving [0xA0] 1 = .ok 0xA0 ∧ (0xA0 : Byte).toNat / 32 = 5) ∧ (giving [0xDF] 1 = .ok 0xDF ∧ (0xDF : Byte).toNat / 32 = 6) :=
  ⟨⟨rfl, rfl⟩, ⟨rfl, rfl⟩, ⟨rfl, rfl⟩, ⟨rfl, rfl⟩⟩
theorem witness_TagAloneSelectsInstruction :
    (giving [0x40] 1 = .ok 0x40 ∧ unpack (giving [0x40]) = .ok (.read 0, 1)) ∧
    (giving [0xC0] 1 = .ok 0xC0 ∧ (0xC0 : Byte).toNat / 32 = 6) := ⟨⟨rfl, rfl⟩, ⟨rfl, rfl⟩⟩
theorem witness_DecodedFieldsAreWordFields :
    (giving [0x5F] 1 = .ok 0x5F ∧ (0x5F : Byte).toNat / 32 = 2) ∧
    (giving [0x7F, 0xFF, 0] 1 = .ok 0x7F ∧ giving [0x7F, 0xFF, 0] 2 = .ok 0xFF ∧ giving [0x7F, 0xFF, 0] 3 = .ok 0 ∧
      (0x7F : Byte).toNat / 32 = 3) ∧
    (giving [0xE0, 0, 0xFF] 1 = .ok 0xE0 ∧ giving [0xE0, 0, 0xFF] 2 = .ok 0 ∧ giving [0xE0, 0, 0xFF] 3 = .ok 0xFF ∧
      (0xE0 : Byte).toNat / 32 = 7) := ⟨⟨rfl, rfl⟩, ⟨rfl, rfl, rfl, rfl⟩, ⟨rfl, rfl, rfl, rfl⟩⟩
theorem witness_DecodedSqrtFieldsAreWordFields :
    giving [0x3F, 1, 2, 3, 0xFF] 1 = .ok 0x3F ∧ giving [0x3F, 1, 2, 3, 0xFF] 2 = .ok 1 ∧
    giving [0x3F, 1, 2, 3, 0xFF] 3 = .ok 2 ∧ giving [0x3F, 1, 2, 3, 0xFF] 4 = .ok 3 ∧
    giving [0x3F, 1, 2, 3, 0xFF] 5 = .ok 0xFF ∧ (0x3F : Byte).toNat / 32 = 1 := ⟨rfl, rfl, rfl, rfl, rfl, rfl⟩

/-- A byte source for two instructions that differ in the padding byte alone. -/
def padded (pad : Byte) (k : Nat) : Except Error Byte := if k = 4 then .ok pad else .ok 0x60

theorem witness_PaddingIsIgnoredAndPackedZero : padded 0 1 = .ok 0x60 ∧ (0x60 : Byte).toNat / 32 = 3 ∧
    (∀ k, k ≠ 4 → padded 0 k = padded 0xFF k) ∧ (0xE0 : Byte).toNat / 32 = 7 :=
  ⟨rfl, rfl, fun k h => by rw [padded, padded, if_neg h, if_neg h], rfl⟩
theorem witness_StandaloneUnpackVerdicts :
    ([] : List Byte)[0]? = none ∧
    (([0x80] : List Byte)[0]? = some 0x80 ∧ lengthOfTag (tagOf 0x80) = none) ∧
    (([0x60, 0, 8] : List Byte)[0]? = some 0x60 ∧ lengthOfTag (tagOf 0x60) = some 4 ∧
      ([0x60, 0, 8] : List Byte).length < 0 + 4) ∧
    (([0x60, 0, 8, 0] : List Byte)[0]? = some 0x60 ∧ 0 + 4 ≤ ([0x60, 0, 8, 0] : List Byte).length ∧
      ∀ k b, 1 ≤ k → ([0x60, 0, 8, 0] : List Byte)[0 + k - 1]? = some b → giving [0x60, 0, 8, 0] k = .ok b) :=
  ⟨rfl, ⟨rfl, rfl⟩, ⟨rfl, rfl, by decide⟩, ⟨rfl, by decide, fun k b _ h => by rw [giving, byteAt, h]⟩⟩

theorem witness_UnknownRecordAbortsAssembly :
    ((∀ q ∈ [({ name := "read", fields := [("offset", 0)] } : Record)], ∃ i, transcribe q = .ok i) ∧
      ({ name := "LOAD", fields := [] } : Record).name ∉ opcodeNames) ∧
    [({ name := "read", fields := [("offset", 0)] } : Record)].map transcribe = [Instr.read 0].map Except.ok :=
  ⟨⟨fun q hq => ⟨.read 0, by rw [List.mem_singleton.1 hq]; rfl⟩, by decide⟩, rfl⟩
theorem witness_TraceLineHoldsTwoHexDigitsPerByte :
    ([0x60, 0xFF] : List Byte)[0]? = some 0x60 ∧ 0 + 1 < ([0x60, 0xFF] : List Byte).length ∧
    ([0x60, 0xFF] : List Byte)[1]? = some 0xFF := ⟨rfl, by decide, rfl⟩

theorem witness_LaunchLoadsTheProgramAtZero : (List.replicate 65536 (0 : Byte)).length ≤ 65536 ∧
    ([0x60] : List Byte).length ≤ 65536 ∧ ([0x60] : List Byte)[0]? = some 0x60 :=
  ⟨by rw [List.length_replicate], by decide, rfl⟩
theorem witness_LaunchFillsAboveTheProgram (fill : Nat → Byte) :
    (∃ s, State.launch Config.reference fill [0x60] = some s) ∧ ([0x60] : List Byte).length ≤ 65535 :=
  ⟨⟨_, rfl⟩, by decide⟩
theorem witness_LaunchEstablishesInvariant (fill : Nat → Byte) :
    ∃ s, State.launch { stackDepth := some 0, verbose := true } fill [] = some s := ⟨_, rfl⟩
theorem witness_LaunchedRunsEndInTheInvariant (fill : Nat → Byte) :
    ∃ s, State.launch Config.reference fill [0x20, 0, 2, 0xB9, 0x18] = some s := ⟨_, rfl⟩

theorem witness_CanonicalMemoryIsUnique : Memory.wf [(0, 1), (65535, 255)] = true ∧
    ∀ a, a ≤ 65535 → Memory.read [(0, 1), (65535, 255)] a = Memory.read [(0, 1), (65535, 255)] a :=
  ⟨by decide, fun _ _ => rfl⟩

theorem witness_LoadPushesItsConstant :
    (∀ d, (bounded (started [] [5]) 2).config.stackDepth = some d → (bounded (started [] [5]) 2).stack.length < d) ∧
    (bounded (started [] [5]) 1).config.stackDepth = some 1 ∧ 1 ≤ (bounded (started [] [5]) 1).stack.length :=
  ⟨fun d h => by cases h; decide, rfl, le_rfl⟩
theorem witness_ReadReplacesBaseByCell :
    ((started [] [65535]).stack = 65535 :: [] ∧ 65535 + 0 ≤ 65535) ∧ (started [] []).stack = [] ∧
    ((started [] [65535]).stack = 65535 :: [] ∧ 65535 < 65535 + 1) := ⟨⟨rfl, le_rfl⟩, rfl, ⟨rfl, by decide⟩⟩
theorem witness_StoreWritesTheOneCell : (started [] [255]).stack = 255 :: [] ∧ 65535 ≤ 65535 ∧ 255 ≤ 255 :=
  ⟨rfl, le_rfl, le_rfl⟩
theorem witness_StoreErrorsInOrder : (started [] []).stack = [] ∧
    ((started [] [256]).stack = 256 :: [] ∧ 65535 < 65536) ∧
    ((started [] [256]).stack = 256 :: [] ∧ 65535 ≤ 65535 ∧ 255 < 256) :=
  ⟨rfl, ⟨rfl, by decide⟩, ⟨rfl, le_rfl, by decide⟩⟩
theorem witness_SqrtWritesTheRootOfTheSource :
    ((started [] [65280]).stack = 65280 :: [] ∧ 65280 + 255 ≤ 65535 ∧ 65535 ≤ 65535) ∧ (started [] []).stack = [] ∧
    ((started [] [65281]).stack = 65281 :: [] ∧ 65535 < 65281 + 255) ∧
    ((started [] [0]).stack = 0 :: [] ∧ 0 + 0 ≤ 65535 ∧ 65535 < 65536) :=
  ⟨⟨rfl, le_rfl, le_rfl⟩, rfl, ⟨rfl, by decide⟩, ⟨rfl, by decide, by decide⟩⟩
theorem witness_SquareRootIsExact : (-1 : Int) < 0 := by decide

theorem witness_PushingInstructionsFrame : (∃ t, exec (.load 0) (started [] []) = .next t) ∧
    ∃ t, exec (.read 0) (started [] [0]) = .next t := ⟨⟨_, rfl⟩, ⟨_, rfl⟩⟩
theorem witness_StoringInstructionsFrame : (∃ t, exec (.store 0) (started [] [1]) = .next t) ∧
    ∃ t, exec (.sqrt 0 0) (started [] [0]) = .next t := ⟨⟨_, rfl⟩, ⟨_, rfl⟩⟩
/-- One completing case of each instruction. -/
theorem witness_StackMovesAsTheTableSays :
    (nextOf (exec (.load 0) (started [] []))).map (fun t => t.status) = some .running ∧
    (nextOf (exec (.read 0) (started [] [0]))).map (fun t => t.status) = some .running ∧
    (nextOf (exec (.store 0) (started [] [1]))).map (fun t => t.status) = some .running ∧
    (nextOf (exec (.sqrt 0 0) (started [] [0]))).map (fun t => t.status) = some .running := by decide
/-- Each instruction ending in an error of its own. -/
theorem witness_EachInstructionRaisesItsOwnErrors :
    (nextOf (exec (.load 0) (bounded (started [] []) 0))).map errorOf = some (some { error := .stackOverflow, loc := 0 }) ∧
    (nextOf (exec (.read 0) (started [] []))).map errorOf = some (some { error := .stackUnderflow, loc := 0 }) ∧
    (nextOf (exec (.store 65536) (started [] [1]))).map errorOf = some (some { error := .outOfBounds 65536, loc := 0 }) ∧
    (nextOf (exec (.sqrt 65536 0) (started [] [0]))).map errorOf = some (some { error := .outOfBounds 65536, loc := 0 }) := by
  decide

/-- Both clauses: an instruction that completes, and one that errs. -/
theorem witness_CompletionAdvancesIpByTheLength :
    (nextOf (exec (.sqrt 65535 255) (started [] [65280]))).map (fun t => t.status) = some .running ∧
    (nextOf (exec (.read 1) (started [] [65535]))).map errorOf = some (some { error := .outOfBounds 65536, loc := 0 }) := by
  decide

theorem witness_StepRunsTheFetchedInstruction : (started [0x59] []).status = .running ∧ (started [0x59] []).ip < 1 ∧
    unpack (fun k => memRead (started [0x59] []) ((started [0x59] []).ip + k - 1)) = .ok (.read 25, 1) :=
  ⟨rfl, by decide, rfl⟩
/-- One READ byte in the last cell of memory. -/
theorem top_cell_holds_read : (atTop 65535 [0x5F] []).holdsAtIp [0x5F] := by
  intro k b hk _
  cases k with
  | zero => cases hk; exact ⟨by decide, by decide⟩
  | succ k => cases hk
theorem witness_StepRunsTheEncodedInstruction : (atTop 65535 [0x5F] []).status = .running ∧
    (atTop 65535 [0x5F] []).ip < (atTop 65535 [0x5F] []).plen ∧ (Instr.read 31).wellFormed = true ∧
    (atTop 65535 [0x5F] []).holdsAtIp (encode (.read 31)) := ⟨rfl, by decide, rfl, top_cell_holds_read⟩
theorem witness_PackerAndExecutorAgree : (atTop 65535 [0x5F] []).status = .running ∧
    (atTop 65535 [0x5F] []).ip < (atTop 65535 [0x5F] []).plen ∧
    (atTop 65535 [0x5F] []).holdsAtIp (pack (.read 63)) := ⟨rfl, by decide, top_cell_holds_read⟩
theorem witness_StepDoesOneOfThreeThings : State.reset.status = .running ∧
    ({ State.reset with status := .halted } : State).status ≠ .running := by decide
theorem witness_NormalHaltExactlyAtTheEnd : State.reset.status = .running ∧ ∃ t, step State.reset = .next t :=
  ⟨rfl, ⟨_, rfl⟩⟩

/-- Each kind of error halt: by the fetch, before a pop, and after one. -/
theorem witness_ErrorHaltIsPrecise :
    (nextOf (step (started [0x80] []))).map errorOf = some (some { error := .unknownOpcode 0x80, loc := 0 }) ∧
    (nextOf (step (started [0x40] []))).map errorOf = some (some { error := .stackUnderflow, loc := 0 }) ∧
    (nextOf (step (started [0x40] [65536]))).map errorOf = some (some { error := .outOfBounds 65536, loc := 0 }) ∧
    fetch (started [0x80] []) = .error (.unknownOpcode 0x80) ∧ fetch (started [0x40] [65536]) = .ok (.read 0, 1) :=
  ⟨by decide, by decide, by decide, rfl, rfl⟩
theorem witness_TruncatedAndDomainErrorNeverHalt : (started [0xE0, 0, 0, 0] []).status = .running ∧
    (nextOf (step (started [0xE0, 0, 0, 0] []))).map errorOf = some (some { error := .stackUnderflow, loc := 0 }) := by
  decide
theorem witness_StackOverflowOnlyFromFullLoad :
    (nextOf (step (bounded (started [0x60, 0, 0, 0] [5]) 1))).map errorOf
      = some (some { error := .stackOverflow, loc := 0 }) ∧
    fetch (bounded (started [0x60, 0, 0, 0] [5]) 1) = .ok (.load 0, 4) := ⟨by decide, rfl⟩
theorem witness_UnknownOpcodeHaltsTheRun : (atTop 65535 [0xDF] []).status = .running ∧
    (atTop 65535 [0xDF] []).ip < (atTop 65535 [0xDF] []).plen ∧ (atTop 65535 [0xDF] []).plen ≤ 65536 ∧
    Memory.read (atTop 65535 [0xDF] []).mem 65535 = 0xDF ∧ (0xDF : Byte).toNat / 32 = 6 ∧ (0x1F : Byte).toNat / 32 = 0 ∧
    (0x80 : Byte).toNat / 32 = 4 ∧ (0xA0 : Byte).toNat / 32 = 5 := by decide
theorem witness_FetchPastTheTopIsOutOfBounds :
    ((Memory.read (atTop 65533 [0x60] []).mem 65533).toNat / 32 = 3 ∧ 65533 + fetchedBytes 3 ≤ 65536) ∧
    ((Memory.read (atTop 65532 [0x20] []).mem 65532).toNat / 32 = 1 ∧ 65536 < 65532 + fetchedBytes 1) ∧
    (atTop 65532 [0x20] []).status = .running ∧ (atTop 65532 [0x20] []).ip < (atTop 65532 [0x20] []).plen ∧
    (atTop 65532 [0x20] []).plen ≤ 65536 := by decide
theorem witness_ProgramLengthOnlyGatesTheHalt : (started [0x60] []).status = .running ∧
    (started [0x60] []).ip < (started [0x60] []).plen ∧ (started [0x60] []).ip < 65536 ∧
    ∃ t, step (started [0x60] []) = .next t := ⟨rfl, by decide, by decide, ⟨_, rfl⟩⟩
theorem witness_VerboseOnlyControlsTheTrace : ∃ t, step (started [0x60] []) = .next t := ⟨_, rfl⟩
theorem witness_FetchReadsOnlyTheCellsAtIp :
    ∀ k, k < 5 → Memory.read (started [0x60, 0, 8, 0, 1, 9] []).mem (0 + k) =
      Memory.read (started [0x60, 0, 8, 0, 1] []).mem (0 + k) := by decide
theorem witness_DumpHasOneRowPerAddress : 65535 ≤ 65535 ∧ 0 ≤ 65535 - 65535 := ⟨le_rfl, le_rfl⟩
theorem witness_DumpBoundsAreChecked : ((9 : Int) < 10) ∧ ((-1 : Int) ≤ -1 ∧ (-1 : Int) < 0) ∧
    ((65536 : Int) ≤ 65536 ∧ (0 : Int) ≤ 65536 ∧ (65535 : Int) < 65536) ∧
    ((65535 : Int) ≤ 65535 ∧ (0 : Int) ≤ 65535) := by decide
/-- A state of the invariant from which an instruction steps. -/
theorem witness_StepKeepsInvariant :
    (started [0x60, 0, 8, 0] [0x1FFFFF]).Inv ∧ ∃ t, step (started [0x60, 0, 8, 0] [0x1FFFFF]) = .next t :=
  ⟨{ mem_wf := by decide
     stack_small := fun v h => by rw [List.mem_singleton.1 h]; decide
     stack_depth := fun _ h => by cases h
     plen_le := by decide
     ip_le := by decide
     halted_end := fun h => by cases h
     error_loc := fun _ h => by cases h }, ⟨_, rfl⟩⟩

end Sys2Proof.Tests
end

section
/-! The packer against the encoder, and the decoder against both: pack writes the encoding of the truncated
instruction, and the decoder reads a well-formed instruction back from its encoding (R302 to R311, R321). -/

namespace Sys2Proof

/-! ### What the decoder answers, tag by tag -/

theorem unpack_of_tag_read {get : Nat → Except Error Byte} {b1 : Byte} (h1 : get 1 = .ok b1) (ht : tagOf b1 = 2) :
    unpack get = .ok (.read (b1.toNat % 32), 1) := by
  rw [unpack_of_first h1, ht]
  rfl

theorem unpack_of_tag_load {get : Nat → Except Error Byte} {b1 b2 b3 : Byte} (h1 : get 1 = .ok b1)
    (ht : tagOf b1 = 3) (h2 : get 2 = .ok b2) (h3 : get 3 = .ok b3) :
    unpack get = .ok (.load (field21 b1 b2 b3), 4) := by
  rw [unpack_of_first h1, ht]
  exact unpackLoad_ok h2 h3

theorem unpack_of_tag_store {get : Nat → Except Error Byte} {b1 b2 b3 : Byte} (h1 : get 1 = .ok b1)
    (ht : tagOf b1 = 7) (h2 : get 2 = .ok b2) (h3 : get 3 = .ok b3) :
    unpack get = .ok (.store (field21 b1 b2 b3), 4) := by
  rw [unpack_of_first h1, ht]
  exact unpackStore_ok h2 h3

theorem unpack_of_tag_sqrt {get : Nat → Except Error Byte} {b1 b2 b3 b4 b5 : Byte} (h1 : get 1 = .ok b1)
    (ht : tagOf b1 = 1) (h2 : get 2 = .ok b2) (h3 : get 3 = .ok b3) (h4 : get 4 = .ok b4) (h5 : get 5 = .ok b5) :
    unpack get = .ok (.sqrt (field29 b1 b2 b3 b4) b5.toNat, 5) := by
  rw [unpack_of_first h1, ht]
  exact unpackSqrt_ok h2 h3 h4 h5

/-! ### The fields of an encoding read back -/

/-- The 21-bit field of LOAD and STORE survives being written as bytes (R303, R305). -/
theorem field21_of_bytes {tag v : Nat} (ht : tag < 8) (hv : v < 2 ^ 21) :
    field21 (tagByte tag (v / 2 ^ 16)) (byteOf v 8) (byteOf v 0) = v := by
  rw [field21_eq, tagByte_toNat _ _ ht, byteOf_toNat, byteOf_toNat]
  omega

/-- The 29-bit field of SQRT survives being written as bytes (R306). -/
theorem field29_of_bytes {tag v : Nat} (ht : tag < 8) (hv : v < 2 ^ 29) :
    field29 (tagByte tag (v / 2 ^ 24)) (byteOf v 16) (byteOf v 8) (byteOf v 0) = v := by
  rw [field29_eq, tagByte_toNat _ _ ht, byteOf_toNat, byteOf_toNat, byteOf_toNat]
  omega

/-- The byte source answers every byte of `code` that the decoder asks for: all of them but the padding of a
four-byte instruction (R204, R312). -/
def Supplies (get : Nat → Except Error Byte) (code : List Byte) : Prop :=
  ∀ k b, code[k]? = some b → ¬(code.length = 4 ∧ k = 3) → get (k + 1) = .ok b

/-- The decoder reads every well-formed instruction back from its encoding, whatever the padding holds. -/
theorem unpack_of_supplies_encode {get : Nat → Except Error Byte} {i : Instr} (hw : i.wellFormed = true)
    (h : Supplies get (encode i)) : unpack get = .ok (i, i.width) := by
  cases i with
  | load const =>
    have hc : const < 2 ^ 21 := of_decide_eq_true hw
    rw [unpack_of_tag_load (h 0 _ rfl (by simp)) (tagOf_tagByte 3 _ (by decide)) (h 1 _ rfl (by simp))
      (h 2 _ rfl (by simp)), field21_of_bytes (by decide) hc]
    rfl
  | read offset =>
    have ho : offset < 2 ^ 5 := of_decide_eq_true hw
    have hb : (tagByte 2 offset).toNat % 32 = offset := by
      rw [tagByte_toNat _ _ (by decide)]
      omega
    rw [unpack_of_tag_read (h 0 _ rfl (by simp)) (tagOf_tagByte 2 _ (by decide)), hb]
    rfl
  | store addr =>
    have ha : addr < 2 ^ 21 := of_decide_eq_true hw
    rw [unpack_of_tag_store (h 0 _ rfl (by simp)) (tagOf_tagByte 7 _ (by decide)) (h 1 _ rfl (by simp))
      (h 2 _ rfl (by simp)), field21_of_bytes (by decide) ha]
    rfl
  | sqrt addr offset =>
    obtain ⟨ha, ho⟩ : addr < 2 ^ 29 ∧ offset < 2 ^ 8 := by simpa [Instr.wellFormed] using hw
    have hb : (byteOf offset 0).toNat = offset := by
      rw [byteOf_toNat]
      omega
    rw [unpack_of_tag_sqrt (h 0 _ rfl (by simp [encode])) (tagOf_tagByte 1 _ (by decide))
      (h 1 _ rfl (by simp [encode])) (h 2 _ rfl (by simp [encode])) (h 3 _ rfl (by simp [encode]))
      (h 4 _ rfl (by simp [encode])), field29_of_bytes (by decide) ha, hb]
    rfl

/-! ### The packer writes the encoding of the truncated instruction -/

/-- Or-ing a tag over the bits from 5 on leaves the tag byte, when the overlapping bits are bits of the tag already
or lie above the byte: how the high operand bits of LOAD and STORE vanish into the tag. -/
theorem ofNat_tag_or_eq_tagByte {tag x top : Nat} (htag : (tag ||| x / 32) % 8 = tag) (htop : x % 32 = top % 32) :
    BitVec.ofNat 8 (tag <<< 5 ||| x) = tagByte tag top := by
  have hx : x = (x / 32) <<< 5 ||| x % 32 := by
    rw [← Nat.shiftLeft_add_eq_or_of_lt (by omega), Nat.shiftLeft_eq]
    omega
  have hor : tag <<< 5 ||| x = (tag ||| x / 32) * 32 + x % 32 := by
    calc tag <<< 5 ||| x = (tag ||| x / 32) <<< 5 ||| x % 32 := by
          conv_lhs => rw [hx]
          rw [Nat.shiftLeft_or_distrib, Nat.or_assoc]
      _ = (tag ||| x / 32) * 32 + x % 32 := by
          rw [← Nat.shiftLeft_add_eq_or_of_lt (by omega), Nat.shiftLeft_eq]
  apply BitVec.eq_of_toNat_eq
  rw [tagByte_toNat _ _ (by omega), BitVec.toNat_ofNat, hor]
  omega

theorem ofNat_eq_byteOf {x v lo : Nat} (h : x % 256 = v / 2 ^ lo % 256) : BitVec.ofNat 8 x = byteOf v lo := by
  apply BitVec.eq_of_toNat_eq
  rw [byteOf_toNat, BitVec.toNat_ofNat]
  exact h

theorem ofNat_and_byte_mask (x : Nat) : BitVec.ofNat 8 (x &&& 0xFF) = BitVec.ofNat 8 x := by
  apply BitVec.eq_of_toNat_eq
  rw [BitVec.toNat_ofNat, BitVec.toNat_ofNat, Nat.and_two_pow_sub_one_eq_mod x 8, Nat.mod_mod]

theorem packLoad_eq_encode (const : Nat) : packLoad const = encode (.load (const % 2 ^ 21)) := by
  have hmask : const &&& 0x3FFFFF = const % 2 ^ 22 := Nat.and_two_pow_sub_one_eq_mod const 22
  have htag : ∀ y, y < 2 → (3 ||| y) % 8 = 3 := by decide
  simp only [packLoad, encode, hmask, ofNat_and_byte_mask, Nat.shiftRight_eq_div_pow]
  rw [ofNat_tag_or_eq_tagByte (top := const % 2 ^ 21 / 2 ^ 16) (htag _ (by omega)) (by omega),
    ofNat_eq_byteOf (v := const % 2 ^ 21) (lo := 8) (by omega),
    ofNat_eq_byteOf (v := const % 2 ^ 21) (lo := 0) (by omega)]

theorem packRead_eq_encode (offset : Nat) : packRead offset = encode (.read (offset % 2 ^ 5)) := by
  have htag : ∀ y, y < 1 → (2 ||| y) % 8 = 2 := by decide
  simp only [packRead, encode, low_five_eq_mod]
  rw [ofNat_tag_or_eq_tagByte (top := offset % 2 ^ 5) (htag _ (by omega)) (by omega)]

theorem packStore_eq_encode (addr : Nat) : packStore addr = encode (.store (addr % 2 ^ 21)) := by
  have hmask : addr &&& 0x1FFFFFF = addr % 2 ^ 25 := Nat.and_two_pow_sub_one_eq_mod addr 25
  have htag : ∀ y, y < 16 → (7 ||| y) % 8 = 7 := by decide
  simp only [packStore, encode, hmask, ofNat_and_byte_mask, Nat.shiftRight_eq_div_pow]
  rw [ofNat_tag_or_eq_tagByte (top := addr % 2 ^ 21 / 2 ^ 16) (htag _ (by omega)) (by omega),
    ofNat_eq_byteOf (v := addr % 2 ^ 21) (lo := 8) (by omega),
    ofNat_eq_byteOf (v := addr % 2 ^ 21) (lo := 0) (by omega)]

theorem packSqrt_eq_encode (addr offset : Nat) :
    packSqrt addr offset = encode (.sqrt (addr % 2 ^ 25) (offset % 2 ^ 8)) := by
  have hmask : addr &&& 0x1FFFFFF = addr % 2 ^ 25 := Nat.and_two_pow_sub_one_eq_mod addr 25
  have htag : ∀ y, y < 1 → (1 ||| y) % 8 = 1 := by decide
  simp only [packSqrt, encode, hmask, ofNat_and_byte_mask, Nat.shiftRight_eq_div_pow, low_five_eq_mod]
  rw [ofNat_tag_or_eq_tagByte (top := addr % 2 ^ 25 / 2 ^ 24) (htag _ (by omega)) (by omega),
    ofNat_eq_byteOf (v := addr % 2 ^ 25) (lo := 16) (by omega),
    ofNat_eq_byteOf (v := addr % 2 ^ 25) (lo := 8) (by omega),
    ofNat_eq_byteOf (v := addr % 2 ^ 25) (lo := 0) (by omega),
    ofNat_eq_byteOf (v := offset % 2 ^ 8) (lo := 0) (by omega)]

/-- The packer drops exactly the operand bits above the effective widths: its bytes are the encoding of the truncated
instruction (R310, R321). -/
theorem pack_eq_encode_truncated (i : Instr) : pack i = encode i.truncated := by
  cases i with
  | load const => exact packLoad_eq_encode const
  | read offset => exact packRead_eq_encode offset
  | store addr => exact packStore_eq_encode addr
  | sqrt addr offset => exact packSqrt_eq_encode addr offset

theorem truncated_wellFormed (i : Instr) : i.truncated.wellFormed = true := by
  cases i with
  | load const => exact decide_eq_true (Nat.mod_lt const (by decide))
  | read offset => exact decide_eq_true (Nat.mod_lt offset (by decide))
  | store addr => exact decide_eq_true (Nat.mod_lt addr (by decide))
  | sqrt addr offset =>
    simp only [Instr.truncated, Instr.wellFormed, Bool.and_eq_true, decide_eq_true_eq]
    omega

end Sys2Proof

namespace Sys2Proof.Machine

/-! ### From the bytes at ip to the step -/

theorem fetchByte_eq_ok {s : State} {k : Nat} (h : s.ip + k < memSize) :
    fetchByte s (k + 1) = .ok (Memory.read s.mem (s.ip + k)) :=
  memRead_eq_ok.2 ⟨h, rfl⟩

/-- The bytes that stand at ip are the bytes the fetch is given (R213, R452). -/
theorem supplies_of_holdsAtIp {s : State} {code : List Byte} (h : s.holdsAtIp code) :
    Supplies (fetchByte s) code := by
  intro k b hk hpad
  obtain ⟨hlt, hread⟩ := h k b hk hpad
  rw [fetchByte_eq_ok hlt, hread]

/-- A running state before the program's end steps by the meaning of the instruction it fetches (R458). -/
theorem step_of_fetch {s : State} {i : Instr} {len : Nat} (hrun : s.status = .running) (hip : s.ip < s.plen)
    (hf : fetch s = .ok (i, len)) : step s = exec i s := by
  rw [step, cycle, hrun]
  simp only [runningStep, if_neg (Nat.not_le.2 hip), hf]

/-- A well-formed instruction whose encoding stands at ip is the one the step runs. -/
theorem step_of_holdsAtIp_encode {s : State} {i : Instr} (hrun : s.status = .running) (hip : s.ip < s.plen)
    (hw : i.wellFormed = true) (h : s.holdsAtIp (encode i)) : step s = exec i s :=
  step_of_fetch hrun hip (unpack_of_supplies_encode hw (supplies_of_holdsAtIp h))

/-- Settles O37: the packed bytes are the encoding of the truncated instruction, which is well-formed, so the step
fetches and runs that one. -/
theorem packerAndExecutorAgree : Obligations.PackerAndExecutorAgree := by
  intro s i hrun hip h
  rw [pack_eq_encode_truncated] at h
  exact step_of_holdsAtIp_encode hrun hip (truncated_wellFormed i) h

end Sys2Proof.Machine
end

section
/-! Everything one instruction can do, said once with its guards, in both directions; the invariant kept by each
operation on the state; and the frame, precision and PLEN statements that follow (R112, R456, R457, R610). -/

namespace Sys2Proof.Machine

/-! ### Canonical memories with the same cells are the same list -/

theorem Memory.wfFrom_entry {lo a : Nat} {v : Byte} {m : Memory} :
    Memory.wfFrom lo ((a, v) :: m) = true ↔
      lo ≤ a ∧ a < memSize ∧ v ≠ Memory.unlisted ∧ Memory.wfFrom (a + 1) m = true := by
  simp only [Memory.wfFrom, Bool.and_eq_true, decide_eq_true_eq, and_assoc]

theorem Memory.read_head (a : Nat) (v : Byte) (m : Memory) : Memory.read ((a, v) :: m) a = v := by
  rw [Memory.read_entry, if_neg (lt_irrefl a), if_pos rfl]

theorem Memory.read_below_head {a b : Nat} (h : a < b) (w : Byte) (m : Memory) :
    Memory.read ((b, w) :: m) a = Memory.unlisted := by
  rw [Memory.read_entry, if_neg (by omega), if_neg (by omega)]

/-- A listed cell of a rising list lies at or past its head. -/
theorem Memory.head_le_of_read {a b : Nat} {w : Byte} {m : Memory}
    (h : Memory.read ((b, w) :: m) a ≠ Memory.unlisted) : b ≤ a := by
  by_contra hlt
  exact h (Memory.read_below_head (by omega) w m)

/-- Lists that agree with equal heads agree behind them: up to the head both tails are unlisted. -/
theorem Memory.read_tail_congr {a : Nat} {v : Byte} {m n : Memory} (hm : Memory.wfFrom (a + 1) m = true)
    (hn : Memory.wfFrom (a + 1) n = true) {c : Nat}
    (h : Memory.read ((a, v) :: m) c = Memory.read ((a, v) :: n) c) : Memory.read m c = Memory.read n c := by
  by_cases hc : a < c
  · rwa [Memory.read_entry, Memory.read_entry, if_pos hc, if_pos hc] at h
  · rw [Memory.read_of_wfFrom hm (by omega), Memory.read_of_wfFrom hn (by omega)]

theorem Memory.eq_of_read_eq {lo lo' : Nat} {m n : Memory} (hm : Memory.wfFrom lo m = true)
    (hn : Memory.wfFrom lo' n = true) (h : ∀ a, a < memSize → Memory.read m a = Memory.read n a) : m = n := by
  induction m generalizing lo lo' n with
  | nil =>
    cases n with
    | nil => rfl
    | cons d n =>
      obtain ⟨b, w⟩ := d
      obtain ⟨-, hb, hw, -⟩ := Memory.wfFrom_entry.1 hn
      exact absurd ((h b hb).trans (Memory.read_head b w n)).symm hw
  | cons c m ih =>
    obtain ⟨a, v⟩ := c
    obtain ⟨-, ha, hv, hm⟩ := Memory.wfFrom_entry.1 hm
    have hra := h a ha
    rw [Memory.read_head] at hra
    cases n with
    | nil => exact absurd hra hv
    | cons d n =>
      obtain ⟨b, w⟩ := d
      obtain ⟨-, hb, hw, hn'⟩ := Memory.wfFrom_entry.1 hn
      have hrb := h b hb
      rw [Memory.read_head] at hrb
      obtain rfl : a = b :=
        le_antisymm (Memory.head_le_of_read (hrb ▸ hw)) (Memory.head_le_of_read (hra ▸ hv))
      obtain rfl : v = w := hra.trans (Memory.read_head a w n)
      rw [ih hm hn' fun c hc => Memory.read_tail_congr hm hn' (h c hc)]

/-- Settles O25: the heads of two canonical lists with the same cells are the same entry, and so on behind them. -/
theorem canonicalMemoryIsUnique : Obligations.CanonicalMemoryIsUnique :=
  fun _ _ hm hn h => Memory.eq_of_read_eq hm hn fun a ha => h a (Nat.le_of_lt_succ ha)

/-! ### What an instruction can do -/

/-- The error an instruction raises once it has popped `v`, and its cause (R604, R606). -/
inductive RaisesAfterPop (v : Nat) : Instr → Error → Prop
  | readSource {offset : Nat} : memSize ≤ v + offset →
      RaisesAfterPop v (.read offset) (.outOfBounds ((v + offset : Nat) : Int))
  | storeTarget {addr : Nat} : memSize ≤ addr → RaisesAfterPop v (.store addr) (.outOfBounds (addr : Int))
  | storeValue {addr : Nat} : addr < memSize → 255 < v → RaisesAfterPop v (.store addr) (.cellOverflow v)
  | sqrtSource {addr offset : Nat} : memSize ≤ v + offset →
      RaisesAfterPop v (.sqrt addr offset) (.outOfBounds ((v + offset : Nat) : Int))
  | sqrtTarget {addr offset : Nat} : v + offset < memSize → memSize ≤ addr →
      RaisesAfterPop v (.sqrt addr offset) (.outOfBounds (addr : Int))

/-- An instruction executed from `s` ends in this state: three ways to err, and the completion of each of the four
instructions, each with all of its guards. `exec_eq_next` ties it to exec. -/
inductive Executed (s : State) : Instr → State → Prop
  | full {const : Nat} : s.hasRoom = false → Executed s (.load const) (s.errorHalt .stackOverflow)
  | empty {i : Instr} : (∀ const, i ≠ .load const) → s.stack = [] → Executed s i (s.errorHalt .stackUnderflow)
  | popped {i : Instr} {v : Nat} {rest : List Nat} {e : Error} : s.stack = v :: rest → RaisesAfterPop v i e →
      Executed s i ((s.setStack rest).errorHalt e)
  | load {const : Nat} : s.hasRoom = true → Executed s (.load const) ((s.pushed const).advance 4)
  | read {offset base : Nat} {rest : List Nat} : s.stack = base :: rest → base + offset < memSize →
      Executed s (.read offset)
        (((s.setStack rest).pushed (Memory.read s.mem (base + offset)).toNat).advance 1)
  | store {addr v : Nat} {rest : List Nat} : s.stack = v :: rest → addr < memSize → v ≤ 255 →
      Executed s (.store addr)
        (((s.setStack rest).setMem (Memory.set s.mem addr (BitVec.ofNat 8 v))).advance 4)
  | sqrt {addr offset base : Nat} {rest : List Nat} : s.stack = base :: rest → base + offset < memSize →
      addr < memSize → Executed s (.sqrt addr offset)
        (((s.setStack rest).setMem
          (Memory.set s.mem addr (BitVec.ofNat 8 (isqrt (Memory.read s.mem (base + offset)).toNat)))).advance 5)

theorem isqrt_fits_byte (b : Byte) : isqrt b.toNat ≤ 255 := (isqrt_byte_le b).trans (by decide)

theorem executed_of_execLoad {const : Nat} {s t : State} (h : execLoad const s = .next t) :
    Executed s (.load const) t := by
  unfold execLoad at h
  split at h
  · obtain ⟨hroom, rfl⟩ := push_eq_error.1 ‹_›
    cases h
    exact .full hroom
  · obtain ⟨hroom, rfl⟩ := push_eq_ok.1 ‹_›
    cases h
    exact .load hroom

theorem executed_of_execRead {offset : Nat} {s t : State} (h : execRead offset s = .next t) :
    Executed s (.read offset) t := by
  unfold execRead at h
  split at h
  · obtain ⟨hs, rfl⟩ := pop_eq_error.1 ‹_›
    cases h
    exact .empty nofun hs
  · obtain ⟨rest, hs, rfl⟩ := pop_eq_ok.1 ‹_›
    split at h
    · obtain ⟨ha, rfl⟩ := memRead_eq_error.1 ‹_›
      cases h
      exact .popped hs (.readSource ha)
    · obtain ⟨ha, rfl⟩ := memRead_eq_ok.1 ‹_›
      cases h
      exact .read hs ha

theorem executed_of_execStore {addr : Nat} {s t : State} (h : execStore addr s = .next t) :
    Executed s (.store addr) t := by
  unfold execStore at h
  split at h
  · obtain ⟨hs, rfl⟩ := pop_eq_error.1 ‹_›
    cases h
    exact .empty nofun hs
  · obtain ⟨rest, hs, rfl⟩ := pop_eq_ok.1 ‹_›
    split at h
    · obtain ⟨ha, rfl⟩ | ⟨ha, hv, rfl⟩ := memWrite_eq_error.1 ‹_›
      · cases h
        exact .popped hs (.storeTarget ha)
      · cases h
        exact .popped hs (.storeValue ha hv)
    · obtain ⟨ha, hv, rfl⟩ := memWrite_eq_ok.1 ‹_›
      cases h
      exact .store hs ha hv

theorem executed_of_execSqrt {addr offset : Nat} {s t : State} (h : execSqrt addr offset s = .next t) :
    Executed s (.sqrt addr offset) t := by
  unfold execSqrt at h
  simp only [checkedSqrt_nat] at h
  split at h
  · obtain ⟨hs, rfl⟩ := pop_eq_error.1 ‹_›
    cases h
    exact .empty nofun hs
  · obtain ⟨rest, hs, rfl⟩ := pop_eq_ok.1 ‹_›
    split at h
    · obtain ⟨hsrc, rfl⟩ := memRead_eq_error.1 ‹_›
      cases h
      exact .popped hs (.sqrtSource hsrc)
    · obtain ⟨hsrc, rfl⟩ := memRead_eq_ok.1 ‹_›
      split at h
      · obtain ⟨ha, rfl⟩ | ⟨-, hwide, -⟩ := memWrite_eq_error.1 ‹_›
        · cases h
          exact .popped hs (.sqrtTarget hsrc ha)
        · exact absurd hwide (Nat.not_lt.2 (isqrt_fits_byte _))
      · obtain ⟨ha, -, rfl⟩ := memWrite_eq_ok.1 ‹_›
        cases h
        exact .sqrt hs hsrc ha

theorem executed_of_exec {i : Instr} {s t : State} (h : exec i s = .next t) : Executed s i t := by
  cases i with
  | load const => exact executed_of_execLoad h
  | read offset => exact executed_of_execRead h
  | store addr => exact executed_of_execStore h
  | sqrt addr offset => exact executed_of_execSqrt h

theorem exec_of_raisesAfterPop {i : Instr} {v : Nat} {rest : List Nat} {e : Error} {s : State}
    (hs : s.stack = v :: rest) (h : RaisesAfterPop v i e) :
    exec i s = .next ((s.setStack rest).errorHalt e) := by
  have hpop := pop_eq_ok.2 ⟨rest, hs, rfl⟩
  cases h with
  | readSource hsrc => simp only [exec, execRead, hpop, sourceAddress, memRead_eq_error.2 ⟨hsrc, rfl⟩, raise]
  | storeTarget ha => simp only [exec, execStore, hpop, memWrite_eq_error.2 (.inl ⟨ha, rfl⟩), raise]
  | storeValue ha hv => simp only [exec, execStore, hpop, memWrite_eq_error.2 (.inr ⟨ha, hv, rfl⟩), raise]
  | sqrtSource hsrc => simp only [exec, execSqrt, hpop, sourceAddress, memRead_eq_error.2 ⟨hsrc, rfl⟩, raise]
  | sqrtTarget hsrc ha =>
    simp only [exec, execSqrt, hpop, sourceAddress, memRead_eq_ok.2 ⟨hsrc, rfl⟩, checkedSqrt_nat,
      memWrite_eq_error.2 (.inl ⟨ha, rfl⟩), raise]

theorem exec_of_empty {i : Instr} {s : State} (hi : ∀ const, i ≠ .load const) (hs : s.stack = []) :
    exec i s = .next (s.errorHalt .stackUnderflow) := by
  have hpop := pop_eq_error.2 ⟨hs, rfl⟩
  cases i with
  | load const => exact absurd rfl (hi const)
  | read offset => simp only [exec, execRead, hpop, raise]
  | store addr => simp only [exec, execStore, hpop, raise]
  | sqrt addr offset => simp only [exec, execSqrt, hpop, raise]

theorem exec_of_executed {i : Instr} {s t : State} (h : Executed s i t) : exec i s = .next t := by
  cases h with
  | full hroom => simp only [exec, execLoad, push_eq_error.2 ⟨hroom, rfl⟩, raise]
  | empty hi hs => exact exec_of_empty hi hs
  | popped hs he => exact exec_of_raisesAfterPop hs he
  | load hroom => simp only [exec, execLoad, push_eq_ok.2 ⟨hroom, rfl⟩]
  | read hs hsrc =>
    simp only [exec, execRead, pop_eq_ok.2 ⟨_, hs, rfl⟩, sourceAddress, memRead_eq_ok.2 ⟨hsrc, rfl⟩,
      State.setStack_mem]
  | store hs ha hv =>
    simp only [exec, execStore, pop_eq_ok.2 ⟨_, hs, rfl⟩, memWrite_eq_ok.2 ⟨ha, hv, rfl⟩, State.setStack_mem]
  | sqrt hs hsrc ha =>
    simp only [exec, execSqrt, pop_eq_ok.2 ⟨_, hs, rfl⟩, sourceAddress, memRead_eq_ok.2 ⟨hsrc, rfl⟩,
      checkedSqrt_nat, State.setStack_mem, memWrite_eq_ok.2 ⟨ha, isqrt_fits_byte _, rfl⟩]

/-- What an instruction does is exactly one of the ways of `Executed`. -/
theorem exec_eq_next {i : Instr} {s t : State} : exec i s = .next t ↔ Executed s i t :=
  ⟨executed_of_exec, exec_of_executed⟩

/-! ### Each operation on the state keeps the invariant -/

theorem State.Inv.setHalted {s : State} (h : s.Inv) (hend : s.plen ≤ s.ip) : (s.setStatus .halted).Inv :=
  { h with
    halted_end := fun _ => hend
    error_loc := nofun }

theorem State.Inv.errorHalt {s : State} (h : s.Inv) (hip : s.ip < s.plen) (e : Error) : (s.errorHalt e).Inv :=
  { h with
    halted_end := nofun
    error_loc := by
      intro r hr
      cases hr
      exact ⟨rfl, hip⟩ }

theorem State.Inv.advance {s : State} (h : s.Inv) (hrun : s.status = .running) (hip : s.ip < s.plen) {len : Nat}
    (hlen : len ≤ 5) : (s.advance len).Inv :=
  { h with
    ip_le := by
      simp only [State.advance_ip, State.advance_plen]
      omega
    halted_end := by simp [hrun]
    error_loc := by simp [hrun] }

theorem State.Inv.setMem {s : State} (h : s.Inv) {m : Memory} (hm : Memory.wf m = true) : (s.setMem m).Inv :=
  { h with mem_wf := hm }

/-- The address was in memory, so the one cell written is a byte at an address in memory. -/
theorem State.Inv.write {s : State} (h : s.Inv) {a : Nat} (ha : a < memSize) (v : Byte) :
    (s.setMem (Memory.set s.mem a v)).Inv :=
  h.setMem (Memory.set_wf ha h.mem_wf)

theorem State.Inv.length_of_pop {s : State} (h : s.Inv) {v : Nat} {rest : List Nat} (hs : s.stack = v :: rest)
    {d : Nat} (hd : s.config.stackDepth = some d) : rest.length < d := by
  have hle := h.stack_depth d hd
  rwa [hs] at hle

theorem State.Inv.pop {s : State} (h : s.Inv) {v : Nat} {rest : List Nat} (hs : s.stack = v :: rest) :
    (s.setStack rest).Inv :=
  { h with
    stack_small := fun w hw => h.stack_small w (hs ▸ List.mem_cons_of_mem v hw)
    stack_depth := fun _ hd => (h.length_of_pop hs hd).le }

theorem State.Inv.push {s : State} (h : s.Inv) (hroom : s.hasRoom = true) {v : Nat} (hv : v < 2 ^ 21) :
    (s.pushed v).Inv :=
  { h with
    stack_small := List.forall_mem_cons.2 ⟨hv, h.stack_small⟩
    stack_depth := hasRoom_iff.1 hroom }

/-- The pop frees the place that READ's push takes (R504). -/
theorem State.Inv.hasRoom_of_pop {s : State} (h : s.Inv) {v : Nat} {rest : List Nat} (hs : s.stack = v :: rest) :
    (s.setStack rest).hasRoom = true :=
  hasRoom_iff.2 fun _ hd => h.length_of_pop hs hd

theorem byte_lt_stack_bound (b : Byte) : b.toNat < 2 ^ 21 := b.isLt.trans (by decide)

/-- A well-formed instruction keeps the invariant: LOAD's constant is below 2^21 because the decoder can give no other
(R113), and ip passes PLEN by at most four because it began before it (R104). -/
theorem State.Inv.executed {i : Instr} {s t : State} (h : s.Inv) (hrun : s.status = .running) (hip : s.ip < s.plen)
    (hw : i.wellFormed = true) (hx : Executed s i t) : t.Inv := by
  cases hx with
  | full => exact h.errorHalt hip _
  | empty => exact h.errorHalt hip _
  | popped hs => exact (h.pop hs).errorHalt hip _
  | load hroom => exact (h.push hroom (of_decide_eq_true hw)).advance hrun hip (by decide)
  | read hs =>
    exact ((h.pop hs).push (h.hasRoom_of_pop hs) (byte_lt_stack_bound _)).advance hrun hip (by decide)
  | store hs ha => exact ((h.pop hs).write ha _).advance hrun hip (by decide)
  | sqrt hs _ ha => exact ((h.pop hs).write ha _).advance hrun hip (by decide)

/-- Settles O24: the normal halt, the fetch's error halt and the executed instruction each keep the invariant. -/
theorem stepKeepsInvariant : Obligations.StepKeepsInvariant := by
  intro s t h hstep
  obtain ⟨hrun, ⟨hend, rfl⟩ | ⟨hip, e, -, rfl⟩ | ⟨hip, i, -, hw, hexec⟩⟩ := step_cases hstep
  · exact h.setHalted hend
  · exact h.errorHalt hip e
  · exact h.executed hrun hip hw (exec_eq_next.1 hexec)

/-! ### Frames and stack moves -/

/-- No instruction changes PLEN or the configuration, and the status changes to an error at ip only, with no cell
written (R106, R120, R610). -/
theorem Executed.frame {i : Instr} {s t : State} (h : Executed s i t) :
    t.plen = s.plen ∧ t.config = s.config ∧
      (t.status = s.status ∨ (t.mem = s.mem ∧ ∃ e, t.status = .error { error := e, loc := s.ip })) := by
  cases h with
  | full => exact ⟨rfl, rfl, .inr ⟨rfl, _, rfl⟩⟩
  | empty => exact ⟨rfl, rfl, .inr ⟨rfl, _, rfl⟩⟩
  | popped => exact ⟨rfl, rfl, .inr ⟨rfl, _, rfl⟩⟩
  | load => exact ⟨rfl, rfl, .inl rfl⟩
  | read => exact ⟨rfl, rfl, .inl rfl⟩
  | store => exact ⟨rfl, rfl, .inl rfl⟩
  | sqrt => exact ⟨rfl, rfl, .inl rfl⟩

theorem Executed.mem_of_load {const : Nat} {s t : State} (h : Executed s (.load const) t) : t.mem = s.mem := by
  cases h <;> rfl

theorem Executed.mem_of_read {offset : Nat} {s t : State} (h : Executed s (.read offset) t) : t.mem = s.mem := by
  cases h <;> rfl

theorem Executed.stack_of_load {const : Nat} {s t : State} (h : Executed s (.load const) t) :
    t.stack = s.stack ∨ t.stack.tail = s.stack := by
  cases h with
  | full => exact .inl rfl
  | empty hi => exact absurd rfl (hi const)
  | popped _ he => cases he
  | load => exact .inr rfl

theorem Executed.stack_of_read {offset : Nat} {s t : State} (h : Executed s (.read offset) t) :
    t.stack = s.stack ∨ t.stack = s.stack.tail ∨ t.stack.tail = s.stack.tail := by
  cases h with
  | empty => exact .inl rfl
  | popped hs => exact .inr (.inl (by rw [hs]; rfl))
  | read hs => exact .inr (.inr (by rw [hs]; rfl))

/-- Settles O32: LOAD and READ write no memory at all, and at most replace the top of the stack. -/
theorem pushingInstructionsFrame : Obligations.PushingInstructionsFrame := by
  intro i s t hi hexec
  have hx := exec_eq_next.1 hexec
  obtain ⟨hplen, hconfig, hstatus⟩ := hx.frame
  have hst : t.status = s.status ∨ ∃ e, t.status = .error { error := e, loc := s.ip } := hstatus.imp_right And.right
  obtain ⟨const, rfl⟩ | ⟨offset, rfl⟩ := hi
  · exact ⟨fun a => by rw [hx.mem_of_load], hplen, hconfig, hst, hx.stack_of_load⟩
  · exact ⟨fun a => by rw [hx.mem_of_read], hplen, hconfig, hst, hx.stack_of_read⟩

/-- The instruction stores to this address: STORE and SQRT (R507, R510). -/
def StoresTo (i : Instr) (addr : Nat) : Prop := i = .store addr ∨ ∃ offset, i = .sqrt addr offset

/-- A storing instruction pops its one value and writes no other cell than the one it addresses. -/
theorem Executed.of_storesTo {i : Instr} {addr : Nat} {s t : State} (h : Executed s i t) (hi : StoresTo i addr) :
    (∀ a, a ≠ addr → Memory.read t.mem a = Memory.read s.mem a) ∧ t.stack = s.stack.tail := by
  cases h with
  | full => obtain h | ⟨_, h⟩ := hi <;> cases h
  | empty _ hs => exact ⟨fun _ _ => rfl, by rw [State.errorHalt_stack, hs]; rfl⟩
  | popped hs => exact ⟨fun _ _ => rfl, by rw [hs]; rfl⟩
  | load => obtain h | ⟨_, h⟩ := hi <;> cases h
  | read => obtain h | ⟨_, h⟩ := hi <;> cases h
  | store hs =>
    obtain h | ⟨_, h⟩ := hi <;> cases h
    exact ⟨fun a ha => (Memory.read_set _ _ _ a).trans (if_neg ha), by rw [hs]; rfl⟩
  | sqrt hs =>
    obtain h | ⟨_, h⟩ := hi <;> cases h
    exact ⟨fun a ha => (Memory.read_set _ _ _ a).trans (if_neg ha), by rw [hs]; rfl⟩

/-- Settles O33: a storing instruction either errs with no cell written or writes the one cell it addresses. -/
theorem storingInstructionsFrame : Obligations.StoringInstructionsFrame := by
  intro i addr s t hi hexec
  have hx := exec_eq_next.1 hexec
  obtain ⟨hplen, hconfig, hstatus⟩ := hx.frame
  obtain ⟨hcells, hstack⟩ := hx.of_storesTo hi
  exact ⟨hcells, hplen, hconfig, hstatus.imp_right fun ⟨hmem, he⟩ => ⟨fun a => by rw [hmem], he⟩, hstack⟩

/-- Settles O34: the error halts are not running, and each completion pops and pushes as R112 says. -/
theorem stackMovesAsTheTableSays : Obligations.StackMovesAsTheTableSays := by
  intro i s t _ hexec hrun
  cases exec_eq_next.1 hexec with
  | full => cases hrun
  | empty => cases hrun
  | popped => cases hrun
  | load => rfl
  | read hs => simp [hs]
  | store hs => simp [hs]
  | sqrt hs => simp [hs]

/-! ### The error halt -/

theorem RaisesAfterPop.ne_stack_error {v : Nat} {i : Instr} {e : Error} (h : RaisesAfterPop v i e) :
    e ≠ .stackUnderflow ∧ e ≠ .stackOverflow := by
  cases h <;> exact ⟨nofun, nofun⟩

/-- An instruction that errs halts either with a stack error and nothing popped, or with another error after its
pop (R610). -/
theorem Executed.of_error {i : Instr} {s t : State} {r : ErrorRecord} (h : Executed s i t)
    (hrun : s.status = .running) (ht : t.status = .error r) :
    (t = s.errorHalt r.error ∧ (r.error = .stackUnderflow ∨ r.error = .stackOverflow)) ∨
      ∃ v rest, s.stack = v :: rest ∧ RaisesAfterPop v i r.error ∧ t = (s.setStack rest).errorHalt r.error := by
  cases h with
  | full => cases ht; exact .inl ⟨rfl, .inr rfl⟩
  | empty => cases ht; exact .inl ⟨rfl, .inl rfl⟩
  | popped hs he => cases ht; exact .inr ⟨_, _, hs, he, rfl⟩
  | load => cases hrun.symm.trans ht
  | read => cases hrun.symm.trans ht
  | store => cases hrun.symm.trans ht
  | sqrt => cases hrun.symm.trans ht

theorem step_of_error {t : State} {r : ErrorRecord} (h : t.status = .error r) : step t = .fault .runEnded := by
  rw [step, cycle, h]

/-- The error halt of a step, by its three sources: the fetch, a stack error, an error after the pop (R458, R610). -/
theorem step_error_cases {s t : State} {r : ErrorRecord} (hstep : step s = .next t) (ht : t.status = .error r) :
    (fetch s = .error r.error ∧ t = s.errorHalt r.error) ∨
      ∃ i, fetch s = .ok (i, i.width) ∧
        ((t = s.errorHalt r.error ∧ (r.error = .stackUnderflow ∨ r.error = .stackOverflow)) ∨
          ∃ v rest, s.stack = v :: rest ∧ RaisesAfterPop v i r.error ∧
            t = (s.setStack rest).errorHalt r.error) := by
  obtain ⟨hrun, ⟨-, rfl⟩ | ⟨-, e, hf, rfl⟩ | ⟨-, i, hf, -, hexec⟩⟩ := step_cases hstep
  · cases ht
  · cases ht
    exact .inl ⟨hf, rfl⟩
  · exact .inr ⟨i, hf, (exec_eq_next.1 hexec).of_error hrun ht⟩

/-- An error halt changes nothing but the stack and the status, and its record names ip (R109, R610). -/
theorem step_error_frame {s t : State} {r : ErrorRecord} (hstep : step s = .next t) (ht : t.status = .error r) :
    r.loc = s.ip ∧ t.ip = s.ip ∧ t.mem = s.mem ∧ t.plen = s.plen ∧ t.config = s.config := by
  obtain ⟨e, loc⟩ := r
  obtain ⟨-, rfl⟩ | ⟨i, -, ⟨rfl, -⟩ | ⟨v, rest, -, -, rfl⟩⟩ := step_error_cases hstep ht <;>
    cases ht <;> exact ⟨rfl, rfl, rfl, rfl, rfl⟩

/-- Settles O41: the source of the error tells what the stack holds, and the rest is the frame of every error halt. -/
theorem errorHaltIsPrecise : Obligations.ErrorHaltIsPrecise := by
  intro s t r _ hstep ht
  obtain ⟨hloc, hip, hmem, hplen, hconfig⟩ := step_error_frame hstep ht
  refine ⟨hloc, hip, hmem, hplen, hconfig, ?_⟩
  obtain ⟨hf, rfl⟩ | ⟨i, hf, ⟨rfl, hstk⟩ | ⟨v, rest, hs, he, rfl⟩⟩ := step_error_cases hstep ht
  · refine ⟨fun e h => ⟨Except.error.inj (hf.symm.trans h), rfl⟩, fun i len h => ?_, step_of_error ht⟩
    cases hf.symm.trans h
  · refine ⟨fun e h => ?_, fun i len _ => ⟨fun _ => rfl, fun hu ho => ?_⟩, step_of_error ht⟩
    · cases hf.symm.trans h
    · exact absurd hstk (not_or.2 ⟨hu, ho⟩)
  · refine ⟨fun e h => ?_, fun i len _ => ⟨fun hstk => ?_, fun _ _ => ⟨v, hs⟩⟩, step_of_error ht⟩
    · cases hf.symm.trans h
    · exact absurd hstk (not_or.2 he.ne_stack_error)

/-! ### PLEN -/

/-- No instruction looks at PLEN: it does the same under another one. -/
theorem Executed.with_plen {i : Instr} {s t : State} (h : Executed s i t) (p : Nat) :
    Executed { s with plen := p } i { t with plen := p } := by
  cases h with
  | full hroom => exact .full hroom
  | empty hi hs => exact .empty hi hs
  | popped hs he => exact .popped (s := { s with plen := p }) hs he
  | load hroom => exact .load (s := { s with plen := p }) hroom
  | read hs hsrc => exact .read (s := { s with plen := p }) hs hsrc
  | store hs ha hv => exact .store (s := { s with plen := p }) hs ha hv
  | sqrt hs hsrc ha => exact .sqrt (s := { s with plen := p }) hs hsrc ha

/-- The fetch is checked against the memory size, never against PLEN (R452). -/
theorem fetch_with_plen (s : State) (p : Nat) : fetch { s with plen := p } = fetch s := rfl

theorem step_of_fetch_error {s : State} {e : Error} (hrun : s.status = .running) (hip : s.ip < s.plen)
    (hf : fetch s = .error e) : step s = .next (s.errorHalt e) := by
  rw [step, cycle, hrun]
  simp only [runningStep, if_neg (Nat.not_le.2 hip), hf, raise]

/-- Settles O47: with ip before both ends the halt test fails in both states, and neither the fetch nor the
instruction looks at PLEN. -/
theorem programLengthOnlyGatesTheHalt : Obligations.ProgramLengthOnlyGatesTheHalt := by
  intro s t p hrun hip hp hstep
  obtain ⟨-, ⟨hend, -⟩ | ⟨-, e, hf, rfl⟩ | ⟨-, i, hf, -, hexec⟩⟩ := step_cases hstep
  · omega
  · exact ⟨rfl, step_of_fetch_error (s := { s with plen := p }) hrun hp hf⟩
  · have hx := exec_eq_next.1 hexec
    refine ⟨hx.frame.1, ?_⟩
    calc step { s with plen := p } = exec i { s with plen := p } := step_of_fetch hrun hp hf
      _ = .next { t with plen := p } := exec_eq_next.2 (hx.with_plen p)

end Sys2Proof.Machine
end

section
/-! What the decoder and the fetch depend on: the five bytes B1 to B5, and the cells they stand in (R204, R213). -/

namespace Sys2Proof

/-- The decoder asks its byte source for B1 to B5 and for nothing else (R204, R410). -/
theorem unpack_congr {g g' : Nat → Except Error Byte} (h : ∀ k, k < 5 → g (k + 1) = g' (k + 1)) :
    unpack g = unpack g' := by
  have h1 : g 1 = g' 1 := h 0 (by decide)
  have h2 : g 2 = g' 2 := h 1 (by decide)
  have h3 : g 3 = g' 3 := h 2 (by decide)
  have h4 : g 4 = g' 4 := h 3 (by decide)
  have h5 : g 5 = g' 5 := h 4 (by decide)
  have hload (b1 : Byte) : unpackLoad g b1 = unpackLoad g' b1 := by rw [unpackLoad, h2, h3, unpackLoad]
  have hstore (b1 : Byte) : unpackStore g b1 = unpackStore g' b1 := by rw [unpackStore, h2, h3, unpackStore]
  have hsqrt (b1 : Byte) : unpackSqrt g b1 = unpackSqrt g' b1 := by rw [unpackSqrt, h2, h3, h4, h5, unpackSqrt]
  cases hb : g' 1 with
  | error e => rw [unpack_of_first_error (h1.trans hb), unpack_of_first_error hb]
  | ok b1 => rw [unpack_of_first (h1.trans hb), unpack_of_first hb, hload, hstore, hsqrt]

end Sys2Proof

namespace Sys2Proof.Machine

/-- A read of one cell depends on that cell alone: the bounds check looks at the address only (R206, R208). -/
theorem memRead_congr {s u : State} {a : Nat} (h : Memory.read u.mem a = Memory.read s.mem a) :
    memRead u a = memRead s a := by
  rw [memRead, h, memRead]

/-- Byte B(k+1) of the fetch depends on ip and the cell at ip + k (R204). -/
theorem fetchByte_congr {s u : State} {k : Nat} (hip : u.ip = s.ip)
    (h : Memory.read u.mem (s.ip + k) = Memory.read s.mem (s.ip + k)) :
    fetchByte u (k + 1) = fetchByte s (k + 1) := by
  rw [fetchByte, hip]
  exact memRead_congr h

/-- Settles O49: the decoder asks for B1 to B5 only, and each is read from its own cell, as that cell stands. -/
theorem fetchReadsOnlyTheCellsAtIp : Obligations.FetchReadsOnlyTheCellsAtIp := fun _ _ hip hcells =>
  unpack_congr fun k hk => fetchByte_congr hip (hcells k hk)

end Sys2Proof.Machine
end

section
/-! Decoding undoes encoding at any place of a byte sequence, and with it the round trip through the packer: in
place, in an assembled list, at ip, and from the word back to the word (R303 to R306, R310, R320 to R322). -/

namespace Sys2Proof

/-! ### The tag alone -/

theorem lengthOfTag_eq_some {t len : Nat} (h : lengthOfTag t = some len) :
    (t = 1 ∧ len = 5) ∨ (t = 2 ∧ len = 1) ∨ (t = 3 ∧ len = 4) ∨ (t = 7 ∧ len = 4) := by
  unfold lengthOfTag at h
  split at h <;> simp_all

theorem lengthOfTag_eq_none {t : Nat} : lengthOfTag t = none ↔ t ≠ 1 ∧ t ≠ 2 ∧ t ≠ 3 ∧ t ≠ 7 := by
  unfold lengthOfTag
  split <;> simp_all

/-- A tag that selects no length is rejected from the first byte alone (R316, R416). -/
theorem unpack_of_unknown_tag {get : Nat → Except Error Byte} {b1 : Byte} (h1 : get 1 = .ok b1)
    (ht : lengthOfTag (tagOf b1) = none) : unpack get = .error (.unknownOpcode b1) := by
  obtain ⟨h1', h2', h3', h7'⟩ := lengthOfTag_eq_none.1 ht
  rw [unpack_of_first h1]
  split
  · exact absurd ‹_› h1'
  · exact absurd ‹_› h2'
  · exact absurd ‹_› h3'
  · exact absurd ‹_› h7'
  · rfl

/-- The decoder answers an instruction whenever the tag is known and every byte of its length can be read. -/
theorem exists_unpack_eq_ok {get : Nat → Except Error Byte} {b1 : Byte} {len : Nat} (h1 : get 1 = .ok b1)
    (hl : lengthOfTag (tagOf b1) = some len) (h : ∀ k, k < len → ∃ b, get (k + 1) = .ok b) :
    ∃ i, unpack get = .ok (i, len) := by
  obtain ⟨ht, rfl⟩ | ⟨ht, rfl⟩ | ⟨ht, rfl⟩ | ⟨ht, rfl⟩ := lengthOfTag_eq_some hl
  · obtain ⟨b2, h2⟩ := h 1 (by decide)
    obtain ⟨b3, h3⟩ := h 2 (by decide)
    obtain ⟨b4, h4⟩ := h 3 (by decide)
    obtain ⟨b5, h5⟩ := h 4 (by decide)
    exact ⟨_, unpack_of_tag_sqrt h1 ht h2 h3 h4 h5⟩
  · exact ⟨_, unpack_of_tag_read h1 ht⟩
  · obtain ⟨b2, h2⟩ := h 1 (by decide)
    obtain ⟨b3, h3⟩ := h 2 (by decide)
    exact ⟨_, unpack_of_tag_load h1 ht h2 h3⟩
  · obtain ⟨b2, h2⟩ := h 1 (by decide)
    obtain ⟨b3, h3⟩ := h 2 (by decide)
    exact ⟨_, unpack_of_tag_store h1 ht h2 h3⟩

/-! ### Standalone unpack -/

theorem byteAt_eq_ok {s : List Byte} {j k : Nat} {b : Byte} : byteAt s j (k + 1) = .ok b ↔ s[j + k]? = some b := by
  rw [byteAt, Nat.add_succ_sub_one]
  split <;> simp_all

theorem unpackAt_of_unknown_tag {s : List Byte} {j : Nat} {b1 : Byte} (h1 : s[j]? = some b1)
    (ht : lengthOfTag (tagOf b1) = none) : unpackAt s j = .error (.unknownOpcode b1) := by
  simp only [unpackAt, h1, ht]

/-- Where all the instruction's bytes are there, standalone unpack is the decoder over them (R411). -/
theorem unpackAt_of_fits {s : List Byte} {j len : Nat} {b1 : Byte} (h1 : s[j]? = some b1)
    (hl : lengthOfTag (tagOf b1) = some len) (hfit : j + len ≤ s.length) : unpackAt s j = unpack (byteAt s j) := by
  simp only [unpackAt, h1, hl, if_pos hfit]

theorem unpack_of_unpackAt {s : List Byte} {j : Nat} {r : Instr × Nat} (h : unpackAt s j = .ok r) :
    unpack (byteAt s j) = .ok r := by
  unfold unpackAt at h
  split at h
  · cases h
  · split at h
    · cases h
    · split at h
      · exact h
      · cases h

/-! ### Decoding in place -/

theorem encode_layout (i : Instr) : Laws.Layout.Statement i := by
  cases i with
  | load const => exact Laws.Layout.load const
  | read offset => exact Laws.Layout.read offset
  | store addr => exact Laws.Layout.store addr
  | sqrt addr offset => exact Laws.Layout.sqrt addr offset

theorem getElem?_in_place {pre code post : List Byte} {k : Nat} {b : Byte} (h : code[k]? = some b) :
    (pre ++ code ++ post)[pre.length + k]? = some b := by
  obtain ⟨hk, -⟩ := List.getElem?_eq_some_iff.1 h
  rw [List.append_assoc, List.getElem?_append_right (Nat.le_add_right _ _), Nat.add_sub_cancel_left,
    List.getElem?_append_left hk, h]

/-- Settles O1: the bytes in place are all the decoder asks for, and it reads the instruction back from them. -/
theorem decodeInvertsEncode : Obligations.DecodeInvertsEncode := by
  intro i pre post hw
  obtain ⟨hlen, b1, rest, hcode, -, hl⟩ := encode_layout i
  have h1 : (pre ++ encode i ++ post)[pre.length]? = some b1 := getElem?_in_place (k := 0) (by rw [hcode]; rfl)
  have hfit : pre.length + i.width ≤ (pre ++ encode i ++ post).length := by
    rw [List.length_append, List.length_append, hlen]
    exact Nat.le_add_right _ _
  rw [unpackAt_of_fits h1 hl hfit]
  exact unpack_of_supplies_encode hw fun k b hk _ => byteAt_eq_ok.2 (getElem?_in_place hk)

theorem truncated_width (i : Instr) : i.truncated.width = i.width := by
  cases i <;> rfl

/-- The packed bytes decode in place to the truncated instruction (R321). -/
theorem unpackAt_pack (i : Instr) (pre post : List Byte) :
    unpackAt (pre ++ pack i ++ post) pre.length = .ok (i.truncated, i.width) := by
  rw [pack_eq_encode_truncated, decodeInvertsEncode _ pre post (truncated_wellFormed i), truncated_width]

/-- Truncation leaves exactly the packable instructions as they are (R310). -/
theorem truncated_eq_self_iff (i : Instr) : i.truncated = i ↔ i.packable = true := by
  cases i <;> simp [Instr.truncated, Instr.packable]

/-- Settles O2: the packed bytes are the encoding of the truncated instruction, which decodes in place; truncation is
the statement's reduction of the operands. -/
theorem roundTripReducesToEffectiveWidth : Obligations.RoundTripReducesToEffectiveWidth := by
  intro i pre post
  have h := unpackAt_pack i pre post
  refine ⟨?_, fun hp => by rwa [(truncated_eq_self_iff i).2 hp] at h⟩
  cases i <;> exact h

theorem pack_layout (i : Instr) :
    (pack i).length = i.width ∧ ∃ b1 rest, pack i = b1 :: rest ∧ tagOf b1 = i.tag := by
  rw [pack_eq_encode_truncated]
  obtain ⟨hlen, b1, rest, hcode, htag, -⟩ := encode_layout i.truncated
  have ht : i.truncated.tag = i.tag := by cases i <;> rfl
  exact ⟨hlen.trans (truncated_width i), b1, rest, hcode, htag.trans ht⟩

/-- Settles O6: the packed bytes have the layout of an encoding. -/
theorem packedLengthAndTagAreFixed : Obligations.PackedLengthAndTagAreFixed := by
  intro i
  obtain ⟨hlen, b1, rest, hcode, htag⟩ := pack_layout i
  rw [tagOf_eq_div] at htag
  refine ⟨b1, rest, hcode, ?_⟩
  cases i <;> exact ⟨hlen, htag⟩

/-- Settles O14: the instructions before it pack to as many bytes as their widths together, so the packed instruction
stands there. -/
theorem assembledInstructionsDecodeInPlace : Obligations.AssembledInstructionsDecodeInPlace := by
  intro pre i post trace
  have hpre : (pre.flatMap pack).length = (pre.map Instr.width).sum := by
    simp only [List.length_flatMap, (pack_layout _).1]
  have hblob : (Machine.assemble (pre ++ i :: post) trace).blob =
      pre.flatMap pack ++ pack i ++ post.flatMap pack := by
    simp [Machine.assemble]
  rw [hblob, ← hpre]
  exact unpackAt_pack i _ _

/-- Settles O36: the encoding at ip is what the fetch is given. -/
theorem stepRunsTheEncodedInstruction : Obligations.StepRunsTheEncodedInstruction := fun _ _ hrun hip hw h =>
  Machine.step_of_holdsAtIp_encode hrun hip hw h

/-! ### The decoded fields -/

/-- Settles O7: these four tags select no length. -/
theorem unknownTagsAreRejected : Obligations.UnknownTagsAreRejected := by
  intro get b1 h1 ht
  rw [← tagOf_eq_div] at ht
  exact unpack_of_unknown_tag h1 (lengthOfTag_eq_none.2 (by omega))

/-- Settles O8: the decoder's answers are one instruction form for each known tag. -/
theorem tagAloneSelectsInstruction : Obligations.TagAloneSelectsInstruction := by
  intro get b1 h1
  simp only [← tagOf_eq_div]
  refine ⟨fun i len h => ?_, fun h1' h2' h3' h7' =>
    unpack_of_unknown_tag h1 (lengthOfTag_eq_none.2 ⟨h1', h2', h3', h7'⟩)⟩
  obtain ⟨b, hb, hcases⟩ := unpack_inv h
  obtain rfl : b1 = b := Except.ok.inj (h1.symm.trans hb)
  obtain ⟨ht, h⟩ | ⟨ht, h⟩ | ⟨ht, h⟩ | ⟨ht, h⟩ := hcases
  · obtain ⟨_, _, _, _, -, -, -, -, h⟩ := unpackSqrt_inv h
    cases h
    exact .inl ⟨ht, rfl, _, _, rfl⟩
  · cases h
    exact .inr (.inl ⟨ht, rfl, _, rfl⟩)
  · obtain ⟨_, _, -, -, h⟩ := unpackLoad_inv h
    cases h
    exact .inr (.inr (.inl ⟨ht, rfl, _, rfl⟩))
  · obtain ⟨_, _, -, -, h⟩ := unpackStore_inv h
    cases h
    exact .inr (.inr (.inr ⟨ht, rfl, _, rfl⟩))

/-- The operand field of LOAD and STORE is W[28:8] of the four-byte word (R307). -/
theorem field21_eq_word_bits (b1 b2 b3 b4 : Byte) : field21 b1 b2 b3 =
    (b1.toNat * 2 ^ 24 + b2.toNat * 2 ^ 16 + b3.toNat * 2 ^ 8 + b4.toNat) / 2 ^ 8 % 2 ^ 21 := by
  have h2 := b2.isLt
  have h3 := b3.isLt
  have h4 := b4.isLt
  rw [field21_eq]
  omega

/-- Settles O9: each field, by place values, is the word's bits the rule names. -/
theorem decodedFieldsAreWordFields : Obligations.DecodedFieldsAreWordFields := by
  intro get b1 b2 b3 b4 h1
  simp only [← tagOf_eq_div, ← field21_eq_word_bits]
  exact ⟨unpack_of_tag_read h1, fun h2 h3 =>
    ⟨fun ht => unpack_of_tag_load h1 ht h2 h3, fun ht => unpack_of_tag_store h1 ht h2 h3⟩⟩

/-- Settles O10: by place values, SQRT's address field is W[36:8] and its last byte W[7:0]. -/
theorem decodedSqrtFieldsAreWordFields : Obligations.DecodedSqrtFieldsAreWordFields := by
  intro get b1 b2 b3 b4 b5 h1 h2 h3 h4 h5 ht
  rw [← tagOf_eq_div] at ht
  have := b2.isLt
  have := b3.isLt
  have := b4.isLt
  have := b5.isLt
  rw [unpack_of_tag_sqrt h1 ht h2 h3 h4 h5, field29_eq]
  congr 3 <;> omega

/-- Settles O11: LOAD and STORE ask for B2 and B3 only, and their packed bytes end in 0. -/
theorem paddingIsIgnoredAndPackedZero : Obligations.PaddingIsIgnoredAndPackedZero := by
  refine ⟨fun get get' b1 h1 ht hget => ?_, fun _ => rfl, fun _ => rfl⟩
  have h1' : get' 1 = .ok b1 := by rw [← hget 1 (by decide), h1]
  have h2 := hget 2 (by decide)
  have h3 := hget 3 (by decide)
  rw [← tagOf_eq_div] at ht
  rw [unpack_of_first h1, unpack_of_first h1']
  obtain ht | ht := ht
  · simp only [ht, unpackLoad, h2, h3]
  · simp only [ht, unpackStore, h2, h3]

/-! ### From the word back to the word -/

theorem tagByte_eq {b : Byte} {tag top : Nat} (ht : tagOf b = tag) (htop : top % 32 = b.toNat % 32) :
    tagByte tag top = b := by
  apply BitVec.eq_of_toNat_eq
  have hlt := tagOf_lt b
  rw [tagByte_toNat _ _ (by omega)]
  rw [tagOf_eq_div] at ht
  omega

theorem byteOf_eq {b : Byte} {v lo : Nat} (h : v / 2 ^ lo % 256 = b.toNat) : byteOf v lo = b :=
  BitVec.eq_of_toNat_eq (by rw [byteOf_toNat, h])

/-- The bytes a 21-bit field was read from are written back from it. -/
theorem bytes_of_field21 (b1 b2 b3 : Byte) :
    [tagByte (tagOf b1) (field21 b1 b2 b3 / 2 ^ 16), byteOf (field21 b1 b2 b3) 8, byteOf (field21 b1 b2 b3) 0] =
      [b1, b2, b3] := by
  have h2 := b2.isLt
  have h3 := b3.isLt
  rw [field21_eq, tagByte_eq rfl (by omega), byteOf_eq (b := b2) (by omega), byteOf_eq (b := b3) (by omega)]

theorem encode_load_field21 {b1 b2 b3 : Byte} (ht : tagOf b1 = 3) :
    encode (.load (field21 b1 b2 b3)) = [b1, b2, b3, 0] := by
  have h := bytes_of_field21 b1 b2 b3
  rw [ht] at h
  exact congrArg (· ++ [0]) h

theorem encode_store_field21 {b1 b2 b3 : Byte} (ht : tagOf b1 = 7) :
    encode (.store (field21 b1 b2 b3)) = [b1, b2, b3, 0] := by
  have h := bytes_of_field21 b1 b2 b3
  rw [ht] at h
  exact congrArg (· ++ [0]) h

theorem encode_read_low_five {b1 : Byte} (ht : tagOf b1 = 2) : encode (.read (b1.toNat % 32)) = [b1] := by
  rw [encode, tagByte_eq ht (Nat.mod_mod _ _)]

theorem encode_sqrt_field29 {b1 b2 b3 b4 b5 : Byte} (ht : tagOf b1 = 1) :
    encode (.sqrt (field29 b1 b2 b3 b4) b5.toNat) = [b1, b2, b3, b4, b5] := by
  have h2 := b2.isLt
  have h3 := b3.isLt
  have h4 := b4.isLt
  have h5 := b5.isLt
  rw [encode, field29_eq, tagByte_eq ht (by omega), byteOf_eq (b := b2) (by omega), byteOf_eq (b := b3) (by omega),
    byteOf_eq (b := b4) (by omega), byteOf_eq (b := b5) (by omega)]

theorem eq_of_length_eq_four {w : List Byte} {b1 b2 b3 : Byte} (hlen : w.length = 4) (h1 : w[0]? = some b1)
    (h2 : w[1]? = some b2) (h3 : w[2]? = some b3) : ∃ b4, w = [b1, b2, b3, b4] := by
  obtain ⟨c1, c2, c3, c4, rfl⟩ := List.length_eq_four.1 hlen
  cases h1
  cases h2
  cases h3
  exact ⟨c4, rfl⟩

theorem eq_of_length_eq_five {w : List Byte} {b1 b2 b3 b4 b5 : Byte} (hlen : w.length = 5) (h1 : w[0]? = some b1)
    (h2 : w[1]? = some b2) (h3 : w[2]? = some b3) (h4 : w[3]? = some b4) (h5 : w[4]? = some b5) :
    w = [b1, b2, b3, b4, b5] := by
  match w, hlen with
  | [c1, c2, c3, c4, c5], _ =>
    cases h1
    cases h2
    cases h3
    cases h4
    cases h5
    rfl

/-- A word that decodes to its end is the encoding of what it decodes to, but for the padding of LOAD and STORE
(R312, R322). -/
theorem encode_of_unpackAt {w : List Byte} {i : Instr} (h : unpackAt w 0 = .ok (i, w.length)) :
    encode i = if i.width = 4 then w.set 3 0 else w := by
  obtain ⟨b1, h1, hcases⟩ := unpack_inv (unpack_of_unpackAt h)
  rw [byteAt_eq_ok] at h1
  obtain ⟨ht, h⟩ | ⟨ht, h⟩ | ⟨ht, h⟩ | ⟨ht, h⟩ := hcases
  · obtain ⟨b2, b3, b4, b5, h2, h3, h4, h5, h⟩ := unpackSqrt_inv h
    rw [byteAt_eq_ok] at h2 h3 h4 h5
    obtain ⟨rfl, hlen⟩ := Prod.mk.inj h
    rw [encode_sqrt_field29 ht, eq_of_length_eq_five hlen h1 h2 h3 h4 h5]
    rfl
  · obtain ⟨rfl, hlen⟩ := Prod.mk.inj h
    obtain ⟨c, rfl⟩ := List.length_eq_one_iff.1 hlen
    cases h1
    exact encode_read_low_five ht
  · obtain ⟨b2, b3, h2, h3, h⟩ := unpackLoad_inv h
    rw [byteAt_eq_ok] at h2 h3
    obtain ⟨rfl, hlen⟩ := Prod.mk.inj h
    obtain ⟨b4, rfl⟩ := eq_of_length_eq_four hlen h1 h2 h3
    exact encode_load_field21 ht
  · obtain ⟨b2, b3, h2, h3, h⟩ := unpackStore_inv h
    rw [byteAt_eq_ok] at h2 h3
    obtain ⟨rfl, hlen⟩ := Prod.mk.inj h
    obtain ⟨b4, rfl⟩ := eq_of_length_eq_four hlen h1 h2 h3
    exact encode_store_field21 ht

theorem encode_inj {i j : Instr} (hi : i.wellFormed = true) (hj : j.wellFormed = true) (h : encode i = encode j) :
    i = j := by
  have hdi := decodeInvertsEncode i [] [] hi
  rw [h, decodeInvertsEncode j [] [] hj] at hdi
  cases hdi
  rfl

/-- The packer and the encoder agree exactly on the packable instructions (R310, R322). -/
theorem pack_eq_encode_iff {i : Instr} (hw : i.wellFormed = true) : pack i = encode i ↔ i.packable = true := by
  rw [pack_eq_encode_truncated, ← truncated_eq_self_iff]
  exact ⟨encode_inj (truncated_wellFormed i) hw, congrArg encode⟩

theorem set_padding_eq_self_iff {w : List Byte} (hlen : w.length = 4) : w.set 3 0 = w ↔ w[3]? = some 0 := by
  obtain ⟨b1, b2, b3, b4, rfl⟩ := List.length_eq_four.1 hlen
  exact ⟨fun h => by cases h; rfl, fun h => by cases h; rfl⟩

/-- SQRT's packable addresses are those whose top four bits, W[36:33] of the encoding, are 0. -/
theorem sqrt_packable_iff {addr offset : Nat} (hw : (Instr.sqrt addr offset).wellFormed = true) :
    (Instr.sqrt addr offset).packable = true ↔
      ∃ b1, (encode (.sqrt addr offset))[0]? = some b1 ∧ b1.toNat / 2 % 16 = 0 := by
  obtain ⟨ha, ho⟩ : addr < 2 ^ 29 ∧ offset < 2 ^ 8 := by simpa [Instr.wellFormed] using hw
  have hfirst : (∃ b1, (encode (.sqrt addr offset))[0]? = some b1 ∧ b1.toNat / 2 % 16 = 0) ↔
      (tagByte 1 (addr / 2 ^ 24)).toNat / 2 % 16 = 0 := by
    simp [encode]
  rw [hfirst, tagByte_toNat _ _ (by decide)]
  simp only [Instr.packable, Bool.and_eq_true, decide_eq_true_eq]
  omega

/-- Settles O3: a word that decodes is its instruction's encoding but for the padding, and the packer writes that
encoding exactly when the instruction is packable. -/
theorem repackGivesCanonicalWordsBack : Obligations.RepackGivesCanonicalWordsBack := by
  refine ⟨fun w b1 h1 => ⟨unpackAt_of_unknown_tag h1, fun len hl hlen => ?_⟩, fun w i h => ?_⟩
  · rw [unpackAt_of_fits h1 hl (by omega)]
    exact exists_unpack_eq_ok (byteAt_eq_ok.2 h1) hl fun k hk =>
      ⟨_, byteAt_eq_ok.2 (List.getElem?_eq_getElem (by omega))⟩
  · obtain ⟨hw, hlen⟩ := unpack_wellFormed (unpack_of_unpackAt h)
    have henc := encode_of_unpackAt h
    have hpack := pack_eq_encode_iff hw
    cases i with
    | load const =>
      rw [hpack.2 hw, henc]
      exact set_padding_eq_self_iff hlen
    | read offset => exact iff_of_true ((hpack.2 hw).trans henc) trivial
    | store addr =>
      rw [hpack.2 hw, henc]
      exact set_padding_eq_self_iff hlen
    | sqrt addr offset =>
      obtain rfl : encode (.sqrt addr offset) = w := henc
      exact hpack.trans (sqrt_packable_iff hw)

end Sys2Proof
end

section
/-! The codec's output: the packer's bytes in closed form, the verdicts of standalone unpack, and the assembler with
its transcriber and its trace line (R325, R402 to R406, R411, R420 to R423). -/

namespace Sys2Proof

/-! ### The packed bytes in closed form -/

theorem tagByte_eq_ofNat {tag top n : Nat} (h : tag * 32 + top % 32 = n) : tagByte tag top = BitVec.ofNat 8 n := by
  rw [tagByte, h]

/-- The layout LOAD and STORE share: a tag over an operand of any size, of which 21 bits are kept (R402, R404). -/
theorem truncated_bytes21_eq (tag v : Nat) :
    [tagByte tag (v % 2 ^ 21 / 2 ^ 16), byteOf (v % 2 ^ 21) 8, byteOf (v % 2 ^ 21) 0, 0] =
    [BitVec.ofNat 8 (tag * 32 + v / 2 ^ 16 % 2 ^ 5), BitVec.ofNat 8 (v / 2 ^ 8 % 2 ^ 8),
      BitVec.ofNat 8 (v % 2 ^ 8), 0] := by
  rw [tagByte_eq_ofNat (n := tag * 32 + v / 2 ^ 16 % 2 ^ 5) (by omega),
    ← ofNat_eq_byteOf (x := v / 2 ^ 8 % 2 ^ 8) (lo := 8) (by omega),
    ← ofNat_eq_byteOf (x := v % 2 ^ 8) (lo := 0) (by omega)]

/-- Settles O4: the fields of the truncated instruction's encoding, by place values. -/
theorem packedBytesOfReadAndSqrt : Obligations.PackedBytesOfReadAndSqrt := by
  refine ⟨fun offset => ?_, fun addr offset => ?_⟩
  · rw [pack_eq_encode_truncated, Instr.truncated, encode,
      tagByte_eq_ofNat (n := 0x40 + offset % 2 ^ 5) (by omega)]
  · rw [pack_eq_encode_truncated, Instr.truncated, encode,
      tagByte_eq_ofNat (n := 0x20 + addr / 2 ^ 24 % 2) (by omega),
      ← ofNat_eq_byteOf (x := addr / 2 ^ 16 % 2 ^ 8) (lo := 16) (by omega),
      ← ofNat_eq_byteOf (x := addr / 2 ^ 8 % 2 ^ 8) (lo := 8) (by omega),
      ← ofNat_eq_byteOf (x := addr % 2 ^ 8) (lo := 0) (by omega),
      ← ofNat_eq_byteOf (x := offset % 2 ^ 8) (lo := 0) (by omega)]

/-- Settles O5: both are the 21-bit layout, under the tags 3 and 7. -/
theorem packedBytesOfLoadAndStore : Obligations.PackedBytesOfLoadAndStore :=
  ⟨fun const => (pack_eq_encode_truncated (.load const)).trans (truncated_bytes21_eq 3 const),
    fun addr => (pack_eq_encode_truncated (.store addr)).trans (truncated_bytes21_eq 7 addr)⟩

/-! ### Standalone unpack -/

/-- A byte source that answers whatever another one answers decodes the same instruction. -/
theorem unpack_of_extends {get get' : Nat → Except Error Byte} {r : Instr × Nat}
    (hext : ∀ k b, get (k + 1) = .ok b → get' (k + 1) = .ok b) (h : unpack get = .ok r) : unpack get' = .ok r := by
  obtain ⟨b1, h1, ⟨ht, h⟩ | ⟨ht, rfl⟩ | ⟨ht, h⟩ | ⟨ht, h⟩⟩ := unpack_inv h
  · obtain ⟨b2, b3, b4, b5, h2, h3, h4, h5, rfl⟩ := unpackSqrt_inv h
    exact unpack_of_tag_sqrt (hext 0 _ h1) ht (hext 1 _ h2) (hext 2 _ h3) (hext 3 _ h4) (hext 4 _ h5)
  · exact unpack_of_tag_read (hext 0 _ h1) ht
  · obtain ⟨b2, b3, h2, h3, rfl⟩ := unpackLoad_inv h
    exact unpack_of_tag_load (hext 0 _ h1) ht (hext 1 _ h2) (hext 2 _ h3)
  · obtain ⟨b2, b3, h2, h3, rfl⟩ := unpackStore_inv h
    exact unpack_of_tag_store (hext 0 _ h1) ht (hext 1 _ h2) (hext 2 _ h3)

theorem unpackAt_of_no_first {s : List Byte} {j : Nat} (h : s[j]? = none) : unpackAt s j = .error (.truncated j) := by
  rw [unpackAt, h]

theorem unpackAt_of_too_short {s : List Byte} {j len : Nat} {b1 : Byte} (h1 : s[j]? = some b1)
    (hl : lengthOfTag (tagOf b1) = some len) (hshort : s.length < j + len) :
    unpackAt s j = .error (.truncated j) := by
  simp only [unpackAt, h1, hl, if_neg (Nat.not_le.2 hshort)]

/-- Where all the bytes of a known tag are there, the decoder over them answers, with the tag's length (R411). -/
theorem exists_unpack_byteAt_eq_ok {s : List Byte} {j len : Nat} {b1 : Byte} (h1 : s[j]? = some b1)
    (hl : lengthOfTag (tagOf b1) = some len) (hfit : j + len ≤ s.length) :
    ∃ i, unpack (byteAt s j) = .ok (i, len) :=
  exists_unpack_eq_ok (byteAt_eq_ok.2 h1) hl fun _ hk =>
    ⟨_, byteAt_eq_ok.2 (List.getElem?_eq_getElem (by omega))⟩

/-- Settles O12: one verdict for each of the four tests on the bytes; a source that agrees with the bytes there
extends theirs, so it decodes the same. -/
theorem standaloneUnpackVerdicts : Obligations.StandaloneUnpackVerdicts := by
  refine fun s j => ⟨unpackAt_of_no_first, fun b1 h1 => ⟨unpackAt_of_unknown_tag h1, fun len hl =>
    ⟨unpackAt_of_too_short h1 hl, fun hfit => ?_⟩⟩⟩
  obtain ⟨i, hi⟩ := exists_unpack_byteAt_eq_ok h1 hl hfit
  refine ⟨i, (unpackAt_of_fits h1 hl hfit).trans hi, fun get hget => unpack_of_extends (fun k b hb => ?_) hi⟩
  exact hget (k + 1) b (by omega) (byteAt_eq_ok.1 hb)

end Sys2Proof

namespace Sys2Proof.Machine

/-! ### The assembler -/

theorem assemble_blob (l : List Instr) (trace : Bool) : (assemble l trace).blob = l.flatMap pack := rfl

theorem assemble_trace (l : List Instr) (trace : Bool) :
    (assemble l trace).trace = if trace then some (traceChars (l.flatMap pack)) else none := rfl

/-- Settles O15: the blob is the packed instructions one after the other, each as long as its width. -/
theorem assemblyConcatenatesPackedBytes : Obligations.AssemblyConcatenatesPackedBytes := by
  refine fun l trace => ⟨rfl, fun i => ?_, ?_, rfl, ?_⟩
  · rw [assemble_blob, assemble_blob, List.flatMap_cons]
  · simp only [assemble_blob, List.length_flatMap, (pack_layout _).1]
  · cases trace <;> simp [assemble_trace]

/-! ### The transcriber -/

/-- Operands named as the variant names them, with natural values, are those values (R325). -/
theorem operands_of_nat_fields (name : String) (vs : List (String × Nat)) :
    Record.operands { name := name, fields := vs.map fun v => (v.1, (v.2 : Int)) } (vs.map Prod.fst) =
      some (vs.map Prod.snd) := by
  simp [Record.operands, Function.comp_def]

theorem transcribe_of_unknown_name {r : Record} (h : r.name ∉ opcodeNames) :
    transcribe r = .error .unknownOpcode := by
  simp only [opcodeNames, List.mem_cons, List.not_mem_nil, or_false, not_or] at h
  obtain ⟨hload, hread, hstore, hsqrt⟩ := h
  rw [transcribe, if_neg hload, if_neg hread, if_neg hstore, if_neg hsqrt]

/-- A record of a known name is refused, if at all, for its operands (R406). -/
theorem unknown_name_of_transcribe {r : Record} (h : transcribe r = .error .unknownOpcode) :
    r.name ∉ opcodeNames := by
  unfold transcribe at h
  split_ifs at h with hload hread hstore hsqrt
  · split at h <;> cases h
  · split at h <;> cases h
  · split at h <;> cases h
  · split at h <;> cases h
  · simp [opcodeNames, hload, hread, hstore, hsqrt]

/-- Settles O16: the refusal is the last branch, past the four names. -/
theorem transcriberRefusesUnknownNames : Obligations.TranscriberRefusesUnknownNames := by
  refine ⟨fun r => ⟨unknown_name_of_transcribe, transcribe_of_unknown_name⟩, fun c o a => ?_⟩
  have hload := operands_of_nat_fields "load" [("const", c)]
  have hread := operands_of_nat_fields "read" [("offset", o)]
  have hstore := operands_of_nat_fields "store" [("addr", a)]
  have hsqrt := operands_of_nat_fields "sqrt" [("addr", a), ("offset", o)]
  simp only [List.map_cons, List.map_nil] at hload hread hstore hsqrt
  simp [transcribe, hload, hread, hstore, hsqrt]

theorem transcribeAll_cons_error {r : Record} {e : TranscribeRefusal} (h : transcribe r = .error e)
    (rs : List Record) : transcribeAll (r :: rs) = .error e := by
  rw [transcribeAll, h]
  rfl

theorem transcribeAll_cons_ok {r : Record} {i : Instr} (h : transcribe r = .ok i) (rs : List Record) :
    transcribeAll (r :: rs) = (transcribeAll rs).map (i :: ·) := by
  rw [transcribeAll, h]
  cases transcribeAll rs <;> rfl

/-- The first refusal is the list's, whatever comes after it (R421). -/
theorem transcribeAll_of_first_refusal {pre : List Record} {r : Record} {e : TranscribeRefusal}
    (hpre : ∀ q ∈ pre, ∃ i, transcribe q = .ok i) (h : transcribe r = .error e) (post : List Record) :
    transcribeAll (pre ++ r :: post) = .error e := by
  induction pre with
  | nil => exact transcribeAll_cons_error h post
  | cons q pre ih =>
    obtain ⟨hq, hpre⟩ := List.forall_mem_cons.1 hpre
    obtain ⟨i, hi⟩ := hq
    rw [List.cons_append, transcribeAll_cons_ok hi, ih hpre]
    rfl

theorem transcribeAll_of_map_eq {rs : List Record} {l : List Instr} (h : rs.map transcribe = l.map Except.ok) :
    transcribeAll rs = .ok l := by
  induction rs generalizing l with
  | nil =>
    obtain rfl : l = [] := List.map_eq_nil_iff.1 h.symm
    rfl
  | cons r rs ih =>
    obtain ⟨i, l, rfl, hi, hl⟩ := List.map_eq_cons_iff.1 h.symm
    rw [transcribeAll_cons_ok hi.symm, ih hl.symm]
    rfl

theorem assembleRecords_of_refusal {rs : List Record} {e : TranscribeRefusal} (h : transcribeAll rs = .error e)
    (trace : Bool) : assembleRecords rs trace = .error e := by
  rw [assembleRecords, h]

theorem assembleRecords_of_transcribed {rs : List Record} {l : List Instr} (h : transcribeAll rs = .ok l)
    (trace : Bool) : assembleRecords rs trace = .ok (assemble l trace) := by
  rw [assembleRecords, h]

/-- Settles O17: transcribing stops at the first refusal, and the assembly with it. -/
theorem unknownRecordAbortsAssembly : Obligations.UnknownRecordAbortsAssembly :=
  ⟨fun _ _ post trace hpre hr => assembleRecords_of_refusal
      (transcribeAll_of_first_refusal hpre (transcribe_of_unknown_name hr) post) trace,
    fun _ _ trace h => assembleRecords_of_transcribed (transcribeAll_of_map_eq h) trace⟩

/-! ### The trace line -/

theorem digits_getElem? : ∀ n < 16, "0123456789abcdef".toList[n]? = some (hexDigit n) := by decide

/-- A byte takes two characters of the line, and one more that parts it from the next byte (R422). -/
theorem length_traceChars (blob : List Byte) : (traceChars blob).length = 3 * blob.length - 1 := by
  induction blob using traceChars.induct with
  | case1 => rfl
  | case2 b => rfl
  | case3 b c bs ih =>
    simp only [traceChars, hexByte, List.length_append, List.length_cons, List.length_nil, ih]
    omega

theorem drop_three_traceChars (blob : List Byte) : (traceChars blob).drop 3 = traceChars (blob.drop 1) := by
  cases blob using traceChars.fun_cases <;> rfl

/-- From place 3k on the line is the line of the bytes from the k-th on. -/
theorem drop_traceChars (blob : List Byte) (k : Nat) :
    (traceChars blob).drop (3 * k) = traceChars (blob.drop k) := by
  induction k with
  | zero => rfl
  | succ k ih => rw [Nat.mul_succ, ← List.drop_drop, ih, drop_three_traceChars, List.drop_drop]

theorem traceChars_getElem? (blob : List Byte) (k n : Nat) :
    (traceChars blob)[3 * k + n]? = (traceChars (blob.drop k))[n]? := by
  rw [← drop_traceChars, List.getElem?_drop]

theorem traceChars_cons_zero (b : Byte) (bs : List Byte) :
    (traceChars (b :: bs))[0]? = "0123456789abcdef".toList[b.toNat / 16]? := by
  rw [digits_getElem? _ (Nat.div_lt_of_lt_mul b.isLt)]
  cases bs <;> rfl

theorem traceChars_cons_one (b : Byte) (bs : List Byte) :
    (traceChars (b :: bs))[1]? = "0123456789abcdef".toList[b.toNat % 16]? := by
  rw [digits_getElem? _ (Nat.mod_lt _ (by decide))]
  cases bs <;> rfl

theorem traceChars_cons_two {b : Byte} {bs : List Byte} (h : bs ≠ []) : (traceChars (b :: bs))[2]? = some ' ' := by
  obtain ⟨c, bs, rfl⟩ := List.exists_cons_of_ne_nil h
  rfl

/-- Settles O18: the k-th byte is the head of the line's rest from place 3k on. -/
theorem traceLineHoldsTwoHexDigitsPerByte : Obligations.TraceLineHoldsTwoHexDigitsPerByte := by
  refine ⟨fun blob => ⟨length_traceChars blob, fun k b hb => ?_⟩, fun l => ⟨rfl, rfl⟩⟩
  have hdrop : blob.drop k = b :: blob.drop (k + 1) := by
    obtain ⟨hk, rfl⟩ := List.getElem?_eq_some_iff.1 hb
    exact List.drop_eq_getElem_cons hk
  refine ⟨?_, ?_, fun hk => ?_⟩
  · rw [← Nat.add_zero (3 * k), traceChars_getElem?, hdrop, traceChars_cons_zero]
  · rw [traceChars_getElem?, hdrop, traceChars_cons_one]
  · have hrest : blob.drop (k + 1) ≠ [] := mt List.drop_eq_nil_iff.1 (Nat.not_le.2 hk)
    rw [traceChars_getElem?, hdrop, traceChars_cons_two hrest]

end Sys2Proof.Machine
end

section
/-! The execution cycle: what one step does to status, ip, PLEN and the configuration, which bytes the fetch needs, and
what the verbose switch leaves alone (R451 to R459, R470). -/

namespace Sys2Proof.Machine

/-! ### What one step does -/

theorem width_pos (i : Instr) : 0 < i.width := by
  cases i <;> exact Nat.succ_pos _

/-- An instruction either completes, with ip advanced past it, or halts in an error with ip kept (R457, R610). -/
theorem exec_status_ip {i : Instr} {s t : State} (h : exec i s = .next t) :
    (t.status = s.status ∧ t.ip = s.ip + i.width) ∨
      (t.ip = s.ip ∧ ∃ e, t.status = .error { error := e, loc := s.ip }) := by
  obtain ⟨e, hx⟩ | ⟨e, v, rest, -, hx⟩ | ⟨m, st, hx⟩ := exec_shape i s
  · cases hx.symm.trans h
    exact .inr ⟨rfl, e, rfl⟩
  · cases hx.symm.trans h
    exact .inr ⟨rfl, e, rfl⟩
  · cases hx.symm.trans h
    exact .inl ⟨rfl, rfl⟩

theorem exists_exec_eq_next (i : Instr) (s : State) : ∃ t, exec i s = .next t := by
  obtain ⟨e, hx⟩ | ⟨e, v, rest, -, hx⟩ | ⟨m, st, hx⟩ := exec_shape i s <;> exact ⟨_, hx⟩

theorem step_of_end {s : State} (hrun : s.status = .running) (hend : s.plen ≤ s.ip) :
    step s = .next (s.setStatus .halted) := by
  rw [step, cycle, hrun]
  exact if_pos hend

theorem step_of_not_running {s : State} (h : s.status ≠ .running) : step s = .fault .runEnded := by
  cases hst : s.status with
  | running => exact absurd hst h
  | halted => rw [step, cycle, hst]
  | error r => exact step_of_error hst

theorem exists_step_eq_next {s : State} (hrun : s.status = .running) : ∃ t, step s = .next t := by
  obtain hend | hip := le_or_gt s.plen s.ip
  · exact ⟨_, step_of_end hrun hend⟩
  · cases hf : fetch s with
    | error e => exact ⟨_, step_of_fetch_error hrun hip hf⟩
    | ok r =>
      rw [step_of_fetch hrun hip hf]
      exact exists_exec_eq_next r.1 s

/-- The three ways a step ends: the normal halt at the end, the error halt with ip kept, and an instruction completed
with ip advanced past it (R451). -/
theorem step_outcome {s t : State} (h : step s = .next t) :
    (s.plen ≤ s.ip ∧ t = s.setStatus .halted) ∨
      (s.ip < s.plen ∧ t.ip = s.ip ∧ ∃ r, t.status = .error r) ∨
      (s.ip < s.plen ∧ t.status = .running ∧
        ∃ i, fetch s = .ok (i, i.width) ∧ exec i s = .next t ∧ t.ip = s.ip + i.width) := by
  obtain ⟨hrun, hend | ⟨hip, e, -, rfl⟩ | ⟨hip, i, hf, -, hexec⟩⟩ := step_cases h
  · exact .inl hend
  · exact .inr (.inl ⟨hip, rfl, _, rfl⟩)
  · obtain ⟨hst, hadv⟩ | ⟨hkept, e, he⟩ := exec_status_ip hexec
    · exact .inr (.inr ⟨hip, hst.trans hrun, i, hf, hexec, hadv⟩)
    · exact .inr (.inl ⟨hip, hkept, _, he⟩)

/-- No step changes PLEN or the configuration (R106, R120). -/
theorem step_frame {s t : State} (h : step s = .next t) : t.plen = s.plen ∧ t.config = s.config := by
  obtain ⟨-, ⟨-, rfl⟩ | ⟨-, e, -, rfl⟩ | ⟨-, i, -, -, hexec⟩⟩ := step_cases h
  · exact ⟨rfl, rfl⟩
  · exact ⟨rfl, rfl⟩
  · obtain ⟨hplen, hconfig, -⟩ := (exec_eq_next.1 hexec).frame
    exact ⟨hplen, hconfig⟩

theorem step_halted_iff {s t : State} (h : step s = .next t) : t.status = .halted ↔ s.plen ≤ s.ip := by
  obtain ⟨hend, rfl⟩ | ⟨hip, -, r, hr⟩ | ⟨hip, hrun, -⟩ := step_outcome h
  · exact iff_of_true rfl hend
  · exact iff_of_false (by rw [hr]; nofun) (Nat.not_le.2 hip)
  · exact iff_of_false (by rw [hrun]; nofun) (Nat.not_le.2 hip)

/-- Settles O35: the bytes at ip are what the fetch gives to unpack, whose length is the instruction's width. -/
theorem stepRunsTheFetchedInstruction : Obligations.StepRunsTheFetchedInstruction := fun _ _ _ hrun hip hf =>
  ⟨step_of_fetch hrun hip hf, (unpack_wellFormed hf).2⟩

/-- Settles O38: a running state has a step, which ends in one of the three ways; any other state has none. -/
theorem stepDoesOneOfThreeThings : Obligations.StepDoesOneOfThreeThings := by
  refine ⟨fun s hrun => ?_, fun s h => step_of_not_running h⟩
  obtain ⟨t, hstep⟩ := exists_step_eq_next hrun
  refine ⟨t, hstep, ?_⟩
  obtain ⟨hend, rfl⟩ | herror | ⟨hip, ht, hdone⟩ := step_outcome hstep
  · exact .inl ⟨rfl, hend⟩
  · exact .inr (.inr herror)
  · exact .inr (.inl ⟨ht, hip, hdone⟩)

/-- Settles O39: the halt test decides, and the other two ways of a step end in another status. -/
theorem normalHaltExactlyAtTheEnd : Obligations.NormalHaltExactlyAtTheEnd := fun _ hrun =>
  ⟨⟨step_of_end hrun, fun h => (step_halted_iff h).1 rfl⟩, fun _ h => step_halted_iff h⟩

/-- Settles O40: completion and the error halt are the two ways an instruction ends, told apart by the status. -/
theorem completionAdvancesIpByTheLength : Obligations.CompletionAdvancesIpByTheLength := by
  intro i s t hrun hexec
  obtain ⟨hst, hadv⟩ | ⟨hkept, e, he⟩ := exec_status_ip hexec
  · refine ⟨fun _ => ?_, fun r hr => ?_⟩
    · rw [hadv]
      cases i <;> rfl
    · cases (hst.trans hrun).symm.trans hr
  · exact ⟨fun ht => absurd (he.symm.trans ht) nofun, fun _ _ => hkept⟩

/-! ### The bytes a fetch needs -/

/-- The decoder answers whenever the tag is known and the bytes that tag is fetched with can be read (R204). -/
theorem exists_unpack_of_fetched {get : Nat → Except Error Byte} {b : Nat → Byte} {tag : Nat}
    (htag : tagOf (b 0) = tag) (hknown : tag = 1 ∨ tag = 2 ∨ tag = 3 ∨ tag = 7)
    (h : ∀ k, k < fetchedBytes tag → get (k + 1) = .ok (b k)) : ∃ r, unpack get = .ok r := by
  obtain rfl | rfl | rfl | rfl := hknown
  · exact ⟨_, unpack_of_tag_sqrt (h 0 (by decide)) htag (h 1 (by decide)) (h 2 (by decide)) (h 3 (by decide))
      (h 4 (by decide))⟩
  · exact ⟨_, unpack_of_tag_read (h 0 (by decide)) htag⟩
  · exact ⟨_, unpack_of_tag_load (h 0 (by decide)) htag (h 1 (by decide)) (h 2 (by decide))⟩
  · exact ⟨_, unpack_of_tag_store (h 0 (by decide)) htag (h 1 (by decide)) (h 2 (by decide))⟩

/-- The decoder asks for its bytes in order, so the first one that cannot be read is the error it answers (R204,
R452). -/
theorem unpack_of_first_missing {get : Nat → Except Error Byte} {b : Nat → Byte} {tag n : Nat} {e : Error}
    (htag : tagOf (b 0) = tag) (hknown : tag = 1 ∨ tag = 2 ∨ tag = 3 ∨ tag = 7) (hpos : 0 < n)
    (hn : n < fetchedBytes tag) (h : ∀ k, k < n → get (k + 1) = .ok (b k)) (he : get (n + 1) = .error e) :
    unpack get = .error e := by
  rw [unpack_of_first (h 0 hpos), htag]
  obtain rfl | rfl | rfl | rfl := hknown
  · replace hn : n < 5 := hn
    interval_cases n <;> simp [unpackSqrt, h, he, bind, Except.bind]
  · exact absurd hn (Nat.not_lt.2 hpos)
  · replace hn : n < 3 := hn
    interval_cases n <;> simp [unpackLoad, h, he, bind, Except.bind]
  · replace hn : n < 3 := hn
    interval_cases n <;> simp [unpackStore, h, he, bind, Except.bind]

/-- Settles O46: the bytes below the top of memory can be read, and the first one asked for past it is at 65536. -/
theorem fetchPastTheTopIsOutOfBounds : Obligations.FetchPastTheTopIsOutOfBounds := by
  intro s tag hrun hip hplen hb1 hknown
  have htag : tagOf (Memory.read s.mem (s.ip + 0)) = tag := (tagOf_eq_div _).trans hb1
  constructor
  · intro hfit
    obtain ⟨⟨i, len⟩, hr⟩ := exists_unpack_of_fetched (get := fetchByte s)
      (b := fun k => Memory.read s.mem (s.ip + k)) htag hknown
      fun k hk => fetchByte_eq_ok (by rw [memSize]; omega)
    obtain ⟨-, rfl⟩ := unpack_wellFormed hr
    exact ⟨i, hr⟩
  · intro hpast
    obtain ⟨n, hn⟩ : ∃ n, s.ip + n = 65536 := ⟨65536 - s.ip, by omega⟩
    have hmissing : fetchByte s (n + 1) = .error (.outOfBounds 65536) :=
      memRead_eq_error.2 ⟨hn.ge, by rw [← Nat.add_assoc, hn]; rfl⟩
    exact step_of_fetch_error hrun hip <| unpack_of_first_missing (b := fun k => Memory.read s.mem (s.ip + k))
      htag hknown (by omega) (by omega) (fun k hk => fetchByte_eq_ok (by rw [memSize]; omega)) hmissing

/-! ### The verbose switch -/

/-- The state with the verbose switch set (R470). -/
def State.withVerbose (s : State) (v : Bool) : State := { s with config := { s.config with verbose := v } }

/-- No instruction looks at the verbose switch: it does the same under another setting. -/
theorem Executed.withVerbose {i : Instr} {s t : State} (h : Executed s i t) (v : Bool) :
    Executed (s.withVerbose v) i (t.withVerbose v) := by
  cases h with
  | full hroom => exact .full hroom
  | empty hi hs => exact .empty hi hs
  | popped hs he => exact .popped (s := s.withVerbose v) hs he
  | load hroom => exact .load (s := s.withVerbose v) hroom
  | read hs hsrc => exact .read (s := s.withVerbose v) hs hsrc
  | store hs ha hv => exact .store (s := s.withVerbose v) hs ha hv
  | sqrt hs hsrc ha => exact .sqrt (s := s.withVerbose v) hs hsrc ha

theorem step_withVerbose {s t : State} (h : step s = .next t) (v : Bool) :
    step (s.withVerbose v) = .next (t.withVerbose v) := by
  obtain ⟨hrun, ⟨hend, rfl⟩ | ⟨hip, e, hf, rfl⟩ | ⟨hip, i, hf, -, hexec⟩⟩ := step_cases h
  · exact step_of_end (s := s.withVerbose v) hrun hend
  · exact step_of_fetch_error (s := s.withVerbose v) hrun hip hf
  · calc step (s.withVerbose v) = exec i (s.withVerbose v) := step_of_fetch hrun hip hf
      _ = .next (t.withVerbose v) := exec_eq_next.2 ((exec_eq_next.1 hexec).withVerbose v)

/-- A running state emits its trace line exactly with verbose on. -/
theorem stepTrace_isSome_iff {s : State} (hrun : s.status = .running) :
    (stepTrace s).isSome = true ↔ s.config.verbose = true := by
  unfold stepTrace
  split <;> rename_i h
  · exact iff_of_true rfl h.1
  · exact iff_of_false nofun fun hv => h ⟨hv, hrun⟩

/-- Settles O48: the step and the dump never look at the switch, and the trace line is emitted by it alone. -/
theorem verboseOnlyControlsTheTrace : Obligations.VerboseOnlyControlsTheTrace :=
  ⟨fun _ _ v h => step_withVerbose h v, fun _ _ _ _ => rfl, fun _ => stepTrace_isSome_iff⟩

end Sys2Proof.Machine
end

section
/-! Runs: what every step keeps, every run keeps; ip rises towards PLEN, so a run ends; and where a launched run can
end (R457 to R464, R701). -/

namespace Sys2Proof.Machine

/-! ### Running -/

theorem runFor_succ_of_step {s t : State} (h : step s = .next t) (n : Nat) : runFor (n + 1) s = runFor n t := by
  simp only [runFor, h]

theorem runFor_of_ended {s : State} (h : s.status ≠ .running) (n : Nat) : runFor n s = s := by
  cases n with
  | zero => rfl
  | succ n => simp only [runFor, step_of_not_running h]

theorem runFor_add (m n : Nat) (s : State) : runFor (m + n) s = runFor n (runFor m s) := by
  induction m generalizing s with
  | zero => rw [Nat.zero_add, runFor]
  | succ m ih =>
    by_cases hrun : s.status = .running
    · obtain ⟨t, hstep⟩ := exists_step_eq_next hrun
      rw [Nat.succ_add, runFor_succ_of_step hstep, runFor_succ_of_step hstep, ih]
    · rw [runFor_of_ended hrun, runFor_of_ended hrun, runFor_of_ended hrun]

/-- What every step keeps, every run keeps. -/
theorem runFor_keeps {P : State → Prop} (hP : ∀ s t, P s → step s = .next t → P t) {s : State} (h : P s) (n : Nat) :
    P (runFor n s) := by
  induction n generalizing s with
  | zero => exact h
  | succ n ih =>
    by_cases hrun : s.status = .running
    · obtain ⟨t, hstep⟩ := exists_step_eq_next hrun
      rw [runFor_succ_of_step hstep]
      exact ih (hP s t h hstep)
    · rwa [runFor_of_ended hrun]

/-- A step either ends the run or brings ip closer to PLEN (R457). -/
theorem step_progress {s t : State} (h : step s = .next t) :
    t.status ≠ .running ∨ t.plen - t.ip < s.plen - s.ip := by
  obtain ⟨-, rfl⟩ | ⟨-, -, r, hr⟩ | ⟨hip, -, i, -, -, hadv⟩ := step_outcome h
  · exact .inl nofun
  · exact .inl (by rw [hr]; nofun)
  · have hpos := width_pos i
    rw [(step_frame h).1, hadv]
    omega

/-- One step more than the bytes from ip to PLEN ends the run, the last one being the normal halt's (R459, R460). -/
theorem runFor_ended {n : Nat} {s : State} (h : s.plen - s.ip < n) : (runFor n s).status ≠ .running := by
  induction n generalizing s with
  | zero => exact absurd h (Nat.not_lt_zero _)
  | succ n ih =>
    by_cases hrun : s.status = .running
    · obtain ⟨t, hstep⟩ := exists_step_eq_next hrun
      rw [runFor_succ_of_step hstep]
      obtain hended | hcloser := step_progress hstep
      · rwa [runFor_of_ended hended]
      · exact ih (by omega)
    · rwa [runFor_of_ended hrun]

theorem run_ended (s : State) : (run s).status ≠ .running := runFor_ended (by omega)

/-- Settles O50: PLEN + 1 steps end the run, and an ended run has no further step. -/
theorem everyRunEndsWithinProgramLength : Obligations.EveryRunEndsWithinProgramLength := by
  refine fun s => ⟨run_ended s, fun n hn => ?_⟩
  obtain ⟨k, rfl⟩ := Nat.exists_eq_add_of_le hn
  rw [runFor_add]
  exact runFor_of_ended (run_ended s) k

/-! ### Launched runs -/

theorem inv_of_launch {config : Config} {fill : Nat → Byte} {blob : List Byte} {s : State}
    (h : State.launch config fill blob = some s) : s.Inv := by
  obtain ⟨hlen, rfl⟩ := launch_eq_some.1 h
  exact
    { mem_wf := Memory.image_wf fill blob hlen
      stack_small := nofun
      stack_depth := fun _ _ => Nat.zero_le _
      plen_le := hlen
      ip_le := Nat.zero_le _
      halted_end := nofun
      error_loc := nofun }

theorem run_inv {s : State} (h : s.Inv) : (run s).Inv := runFor_keeps stepKeepsInvariant h _

/-- A run changes neither PLEN nor the configuration (R106, R120). -/
theorem run_frame (s : State) : (run s).plen = s.plen ∧ (run s).config = s.config :=
  runFor_keeps (P := fun t => t.plen = s.plen ∧ t.config = s.config)
    (fun _ _ ⟨hplen, hconfig⟩ hstep => (step_frame hstep).imp (·.trans hplen) (·.trans hconfig)) ⟨rfl, rfl⟩ _

/-- An ended state of the invariant has halted past its program or been stopped by an error inside it (R463). -/
theorem State.Inv.ended {s : State} (h : s.Inv) (hended : s.status ≠ .running) :
    (s.status = .halted ∧ s.plen ≤ s.ip) ∨ ∃ r, s.status = .error r ∧ r.loc = s.ip ∧ r.loc < s.plen := by
  cases hst : s.status with
  | running => exact absurd hst hended
  | halted => exact .inl ⟨rfl, h.halted_end hst⟩
  | error r =>
    obtain ⟨hloc, hip⟩ := h.error_loc r hst
    exact .inr ⟨r, rfl, hloc, hloc ▸ hip⟩

/-- Settles O51: the launch starts in the invariant, the run keeps it and ends. -/
theorem launchedRunsEndInTheInvariant : Obligations.LaunchedRunsEndInTheInvariant := by
  intro config fill blob s h
  have hinv := run_inv (inv_of_launch h)
  have hends := hinv.ended (run_ended s)
  obtain ⟨hplen, hconfig⟩ := run_frame s
  obtain ⟨-, rfl⟩ := launch_eq_some.1 h
  rw [hplen] at hends
  exact ⟨hinv, hplen, hconfig, hends⟩

end Sys2Proof.Machine
end

section
/-! The dump: its rows, and the check of its bounds (R466 to R468). -/

namespace Sys2Proof.Machine

/-- The rows pair each address of the range with its cell, in ascending order. -/
theorem dumpRows_eq_map (m : Memory) (a n : Nat) :
    dumpRows m a n = (List.range' a n).map fun b => (b, Memory.read m b) := by
  induction n generalizing a with
  | zero => rfl
  | succ n ih => rw [dumpRows, ih, List.range'_succ, List.map_cons]

theorem length_dumpRows (m : Memory) (a n : Nat) : (dumpRows m a n).length = n := by
  rw [dumpRows_eq_map, List.length_map, List.length_range']

theorem dumpRows_getElem? (m : Memory) {a n k : Nat} (h : k < n) :
    (dumpRows m a n)[k]? = some (a + k, Memory.read m (a + k)) := by
  rw [dumpRows_eq_map, List.getElem?_map, List.getElem?_range' h, Nat.one_mul, Option.map_some]

theorem dump_of_inside (s : State) {first last : Int} (hle : first ≤ last) (hfirst : 0 ≤ first)
    (hlast : last ≤ 65535) :
    dump s first last = .ok (dumpRows s.mem first.toNat (last - first + 1).toNat) := by
  rw [dump, if_neg (not_lt.2 hle), if_neg (not_lt.2 hfirst), if_neg (not_lt.2 hlast)]

/-- Settles O52: the bounds pass the check, and the range holds last - first + 1 addresses. -/
theorem dumpHasOneRowPerAddress : Obligations.DumpHasOneRowPerAddress := by
  intro s first last hle hlast
  have hcount : ((last : Int) - first + 1).toNat = last - first + 1 := by omega
  refine ⟨dumpRows s.mem first (last - first + 1), ?_, length_dumpRows _ _ _, fun k hk => ?_⟩
  · rw [dump_of_inside s (by omega) (by omega) (by omega), hcount, Int.toNat_natCast]
  · exact dumpRows_getElem? s.mem (Nat.lt_succ_of_le hk)

/-- Settles O53: the three checks in their order, and the rows when all pass. -/
theorem dumpBoundsAreChecked : Obligations.DumpBoundsAreChecked := by
  intro s first last
  refine ⟨fun hempty => ?_, fun hle hneg => ?_, fun hle hfirst hpast => ?_, fun hle hfirst hlast => ?_⟩
  · rw [dump, if_pos hempty]
  · rw [dump, if_neg (not_lt.2 hle), if_pos hneg]
  · rw [dump, if_neg (not_lt.2 hle), if_neg (not_lt.2 hfirst), if_pos hpast]
  · exact ⟨_, dump_of_inside s hle hfirst hlast⟩

end Sys2Proof.Machine
end

section
/-! The four instructions case by case: the value each completes with, and the errors it raises in their order
(R501 to R512, R611). Each case is one way of `Executed`. -/

namespace Sys2Proof.Machine

/-! ### The integer square root -/

theorem lt_succ_isqrtUpTo_sq {v n : Nat} (h : v < (n + 1) * (n + 1)) :
    v < (isqrtUpTo v n + 1) * (isqrtUpTo v n + 1) := by
  induction n with
  | zero => exact h
  | succ n ih =>
    unfold isqrtUpTo
    split
    · exact h
    · exact ih (Nat.lt_of_not_le ‹_›)

/-- The downward search from `v` finds the library's root (R512). -/
theorem isqrt_eq_sqrt (v : Nat) : isqrt v = Nat.sqrt v :=
  Nat.eq_sqrt.2 ⟨isqrtUpTo_sq_le v v, lt_succ_isqrtUpTo_sq (Nat.le_mul_self (v + 1))⟩

theorem isqrt_eq_iff {v k : Nat} : isqrt v = k ↔ k * k ≤ v ∧ v < (k + 1) * (k + 1) := by
  rw [isqrt_eq_sqrt, eq_comm, Nat.eq_sqrt]

theorem checkedSqrt_of_neg {v : Int} (h : v < 0) : checkedSqrt v = .error (.domainError v) := if_pos h

/-- Settles O31: the root is the library's, and the domain check lets every byte through. -/
theorem squareRootIsExact : Obligations.SquareRootIsExact :=
  ⟨fun _ _ => isqrt_eq_iff, fun _ => checkedSqrt_of_neg, fun b => ⟨checkedSqrt_nat b.toNat, isqrt_byte_le b⟩⟩

/-! ### The errors -/

theorem hasRoom_eq_false {s : State} {d : Nat} (hd : s.config.stackDepth = some d) (hfull : d ≤ s.stack.length) :
    s.hasRoom = false :=
  Bool.eq_false_iff.2 fun h => (hasRoom_iff.1 h d hd).not_ge hfull

/-- With nothing to pop, every instruction but LOAD underflows and the stack stays empty (R603). -/
theorem exec_failed_of_empty {i : Instr} {s : State} (hi : ∀ const, i ≠ .load const) (hs : s.stack = []) :
    exec i s = .next (s.failed [] .stackUnderflow) := by
  rw [exec_of_empty hi hs, ← hs]
  rfl

/-- An error after the pop halts on the rest of the stack (R610). -/
theorem exec_failed_of_raisesAfterPop {i : Instr} {v : Nat} {rest : List Nat} {e : Error} {s : State}
    (hs : s.stack = v :: rest) (h : RaisesAfterPop v i e) : exec i s = .next (s.failed rest e) :=
  exec_of_raisesAfterPop hs h

/-- Settles O29: one error for each of the three tests, in their order. -/
theorem storeErrorsInOrder : Obligations.StoreErrorsInOrder :=
  ⟨fun _ _ hs => exec_failed_of_empty nofun hs,
    fun _ _ _ _ hs haddr => exec_failed_of_raisesAfterPop hs (.storeTarget haddr),
    fun _ _ _ _ hs haddr hv => exec_failed_of_raisesAfterPop hs (.storeValue (Nat.lt_succ_of_le haddr) hv)⟩

/-! ### The completions -/

/-- Settles O26: room and its absence are LOAD's two ways. -/
theorem loadPushesItsConstant : Obligations.LoadPushesItsConstant :=
  ⟨fun _ _ hroom => exec_eq_next.2 (.load (hasRoom_iff.2 hroom)),
    fun _ _ _ hd hfull => exec_eq_next.2 (.full (hasRoom_eq_false hd hfull))⟩

/-- Settles O27: READ completes when the sum is in memory, and otherwise raises one of its two errors. -/
theorem readReplacesBaseByCell : Obligations.ReadReplacesBaseByCell :=
  ⟨fun _ _ _ _ hs hsrc => exec_eq_next.2 (.read hs (Nat.lt_succ_of_le hsrc)),
    fun _ _ hs => exec_failed_of_empty nofun hs,
    fun _ _ _ _ hs hsrc => exec_failed_of_raisesAfterPop hs (.readSource hsrc)⟩

/-- A number that fits a byte is read back from the cell it was written to (R206). -/
theorem Memory.toNat_read_set_same (m : Memory) (a : Nat) {v : Nat} (hv : v ≤ 255) :
    (Memory.read (Memory.set m a (BitVec.ofNat 8 v)) a).toNat = v := by
  rw [Memory.read_set, if_pos rfl, BitVec.toNat_ofNat, Nat.mod_eq_of_lt (Nat.lt_succ_of_le hv)]

theorem Memory.read_set_of_ne (m : Memory) {a b : Nat} (v : Byte) (h : b ≠ a) :
    Memory.read (Memory.set m a v) b = Memory.read m b := by
  rw [Memory.read_set, if_neg h]

/-- Settles O28: the completed STORE is a pop and the write of one cell. -/
theorem storeWritesTheOneCell : Obligations.StoreWritesTheOneCell := by
  intro addr v rest s hs haddr hv
  exact ⟨_, exec_eq_next.2 (.store hs (Nat.lt_succ_of_le haddr) hv), Memory.toNat_read_set_same s.mem addr hv,
    fun _ ha => Memory.read_set_of_ne s.mem _ ha, rfl, rfl, rfl, rfl, rfl⟩

/-- The completed SQRT writes one cell, whose value is the root of the source cell, as that cell stood (R510). -/
theorem exec_sqrt_completes {addr offset base : Nat} {rest : List Nat} {s : State} (hs : s.stack = base :: rest)
    (hsrc : base + offset ≤ 65535) (haddr : addr ≤ 65535) :
    ∃ t, exec (.sqrt addr offset) s = .next t ∧
      (Memory.read t.mem addr).toNat = isqrt (Memory.read s.mem (base + offset)).toNat ∧
      (∀ a, a ≠ addr → Memory.read t.mem a = Memory.read s.mem a) ∧
      t.stack = rest ∧ t.ip = s.ip + 5 ∧ t.plen = s.plen ∧ t.status = s.status ∧ t.config = s.config :=
  ⟨_, exec_eq_next.2 (.sqrt hs (Nat.lt_succ_of_le hsrc) (Nat.lt_succ_of_le haddr)),
    Memory.toNat_read_set_same s.mem addr (isqrt_fits_byte _), fun _ ha => Memory.read_set_of_ne s.mem _ ha,
    rfl, rfl, rfl, rfl, rfl⟩

/-- Settles O30: the completion writes the exact root, and each of the three tests has its error. -/
theorem sqrtWritesTheRootOfTheSource : Obligations.SqrtWritesTheRootOfTheSource := by
  refine ⟨fun addr offset base rest s hs hsrc haddr => ?_, fun _ _ _ hs => exec_failed_of_empty nofun hs,
    fun _ _ _ _ _ hs hsrc => exec_failed_of_raisesAfterPop hs (.sqrtSource hsrc),
    fun _ _ _ _ _ hs hsrc haddr =>
      exec_failed_of_raisesAfterPop hs (.sqrtTarget (Nat.lt_succ_of_le hsrc) haddr)⟩
  obtain ⟨t, hexec, hcell, hframe⟩ := exec_sqrt_completes hs hsrc haddr
  obtain ⟨hle, hlt⟩ := isqrt_eq_iff.1 hcell.symm
  exact ⟨t, _, hexec, rfl, hle, hlt, hframe⟩

end Sys2Proof.Machine
end

section
/-! The errors a step can raise: which ones the decoder and the fetch have, which ones each instruction has, and when
the stack overflows (R602 to R608). -/

namespace Sys2Proof

/-! ### The decoder's errors -/

/-- A sequence of two computations fails in the first or, after its success, in the second. -/
theorem eq_error_of_bind {α β : Type} {x : Except Error α} {f : α → Except Error β} {e : Error}
    (h : x >>= f = .error e) : x = .error e ∨ ∃ a, x = .ok a ∧ f a = .error e := by
  cases x with
  | error e' =>
    cases h
    exact .inl rfl
  | ok a => exact .inr ⟨a, rfl, h⟩

theorem get_error_of_unpackLoad {get : Nat → Except Error Byte} {b1 : Byte} {e : Error}
    (h : unpackLoad get b1 = .error e) : ∃ k, get k = .error e := by
  obtain h2 | ⟨b2, -, h⟩ := eq_error_of_bind h
  · exact ⟨2, h2⟩
  obtain h3 | ⟨b3, -, h⟩ := eq_error_of_bind h
  · exact ⟨3, h3⟩
  · cases h

theorem get_error_of_unpackStore {get : Nat → Except Error Byte} {b1 : Byte} {e : Error}
    (h : unpackStore get b1 = .error e) : ∃ k, get k = .error e := by
  obtain h2 | ⟨b2, -, h⟩ := eq_error_of_bind h
  · exact ⟨2, h2⟩
  obtain h3 | ⟨b3, -, h⟩ := eq_error_of_bind h
  · exact ⟨3, h3⟩
  · cases h

theorem get_error_of_unpackSqrt {get : Nat → Except Error Byte} {b1 : Byte} {e : Error}
    (h : unpackSqrt get b1 = .error e) : ∃ k, get k = .error e := by
  obtain h2 | ⟨b2, -, h⟩ := eq_error_of_bind h
  · exact ⟨2, h2⟩
  obtain h3 | ⟨b3, -, h⟩ := eq_error_of_bind h
  · exact ⟨3, h3⟩
  obtain h4 | ⟨b4, -, h⟩ := eq_error_of_bind h
  · exact ⟨4, h4⟩
  obtain h5 | ⟨b5, -, h⟩ := eq_error_of_bind h
  · exact ⟨5, h5⟩
  · cases h

/-- The decoder's own error is UnknownOpcode of the first byte; any other is one of its byte source (R410, R416). -/
theorem unpack_eq_error {get : Nat → Except Error Byte} {e : Error} (h : unpack get = .error e) :
    (∃ b1, get 1 = .ok b1 ∧ e = .unknownOpcode b1) ∨ ∃ k, get k = .error e := by
  obtain h1 | ⟨b1, h1, -⟩ := eq_error_of_bind h
  · exact .inr ⟨1, h1⟩
  rw [unpack_of_first h1] at h
  split at h
  · exact .inr (get_error_of_unpackSqrt h)
  · cases h
  · exact .inr (get_error_of_unpackLoad h)
  · exact .inr (get_error_of_unpackStore h)
  · cases h
    exact .inl ⟨b1, h1, rfl⟩

end Sys2Proof

namespace Sys2Proof.Machine

/-- A fetch fails with UnknownOpcode or with OutOfBounds and in no other way (R602, R604). -/
theorem fetch_eq_error {s : State} {e : Error} (h : fetch s = .error e) :
    (∃ b1, e = .unknownOpcode b1) ∨ ∃ a, e = .outOfBounds a := by
  obtain ⟨b1, -, rfl⟩ | ⟨k, hk⟩ := unpack_eq_error h
  · exact .inl ⟨b1, rfl⟩
  · obtain ⟨-, rfl⟩ := memRead_eq_error.1 hk
    exact .inr ⟨_, rfl⟩

/-- Settles O45: the first byte can be read, and its tag selects no length. -/
theorem unknownOpcodeHaltsTheRun : Obligations.UnknownOpcodeHaltsTheRun := by
  intro s b1 hrun hip hplen hb1 htag
  rw [← tagOf_eq_div] at htag
  have hfirst : fetchByte s 1 = .ok b1 := hb1 ▸ fetchByte_eq_ok (k := 0) (hip.trans_le hplen)
  have hunknown : lengthOfTag (tagOf b1) = none := lengthOfTag_eq_none.2 (by omega)
  exact step_of_fetch_error hrun hip (unpack_of_unknown_tag hfirst hunknown)

/-! ### Each instruction's errors -/

/-- The error halt of an instruction, by its three causes, each with its guard: LOAD's full stack, the empty stack of
the others, and an error after the pop (R603 to R607). -/
theorem Executed.error_causes {i : Instr} {s t : State} {r : ErrorRecord} (h : Executed s i t)
    (hrun : s.status = .running) (ht : t.status = .error r) :
    ((∃ const, i = .load const) ∧ s.hasRoom = false ∧ r.error = .stackOverflow ∧ t.stack = s.stack) ∨
      ((∀ const, i ≠ .load const) ∧ s.stack = [] ∧ r.error = .stackUnderflow) ∨
      ∃ v rest, s.stack = v :: rest ∧ RaisesAfterPop v i r.error := by
  cases h with
  | full hroom => cases ht; exact .inl ⟨⟨_, rfl⟩, hroom, rfl, rfl⟩
  | empty hi hs => cases ht; exact .inr (.inl ⟨hi, hs, rfl⟩)
  | popped hs he => cases ht; exact .inr (.inr ⟨_, _, hs, he⟩)
  | load => cases hrun.symm.trans ht
  | read => cases hrun.symm.trans ht
  | store => cases hrun.symm.trans ht
  | sqrt => cases hrun.symm.trans ht

/-- Settles O42: the three causes, the errors after a pop being each of one instruction. -/
theorem eachInstructionRaisesItsOwnErrors : Obligations.EachInstructionRaisesItsOwnErrors := by
  rintro i s t ⟨e, loc⟩ hrun hexec ht
  obtain ⟨⟨const, rfl⟩, -, he, -⟩ | ⟨hi, hs, he⟩ | ⟨v, rest, hs, he⟩ :=
    (exec_eq_next.1 hexec).error_causes hrun ht
  · exact he
  · cases i with
    | load const => exact absurd rfl (hi const)
    | read => exact .inl ⟨hs, he⟩
    | store => exact .inl ⟨hs, he⟩
    | sqrt => exact .inl ⟨hs, he⟩
  · cases he with
    | readSource hsrc => exact .inr ⟨v, rest, hs, hsrc, rfl⟩
    | storeTarget haddr => exact .inr (.inl ⟨haddr, rfl⟩)
    | storeValue haddr hv => exact .inr (.inr ⟨Nat.le_of_lt_succ haddr, v, rest, hs, hv, rfl⟩)
    | sqrtSource hsrc => exact .inr (.inl ⟨v, rest, hs, hsrc, rfl⟩)
    | sqrtTarget _ haddr => exact .inr (.inr ⟨haddr, rfl⟩)

theorem RaisesAfterPop.eq_outOfBounds_or_cellOverflow {v : Nat} {i : Instr} {e : Error} (h : RaisesAfterPop v i e) :
    (∃ a, e = .outOfBounds a) ∨ e = .cellOverflow v := by
  cases h with
  | storeValue => exact .inr rfl
  | _ => exact .inl ⟨_, rfl⟩

/-- The five errors a step can end in: two of the fetch, the two stack errors, and two after a pop (R602 to R607). -/
theorem step_error_kinds {s t : State} {r : ErrorRecord} (hstep : step s = .next t) (ht : t.status = .error r) :
    (∃ b1, r.error = .unknownOpcode b1) ∨ (∃ a, r.error = .outOfBounds a) ∨ r.error = .stackUnderflow ∨
      r.error = .stackOverflow ∨ ∃ v, r.error = .cellOverflow v := by
  obtain ⟨hf, -⟩ | ⟨i, -, ⟨-, hstk⟩ | ⟨v, rest, -, he, -⟩⟩ := step_error_cases hstep ht
  · exact (fetch_eq_error hf).imp_right .inl
  · exact .inr (.inr (hstk.imp_right .inl))
  · obtain hbounds | hcell := he.eq_outOfBounds_or_cellOverflow
    · exact .inr (.inl hbounds)
    · exact .inr (.inr (.inr (.inr ⟨v, hcell⟩)))

/-- Settles O43: neither is among the kinds a step can end in. -/
theorem truncatedAndDomainErrorNeverHalt : Obligations.TruncatedAndDomainErrorNeverHalt := by
  intro s t r _ hstep ht
  obtain ⟨_, he⟩ | ⟨_, he⟩ | he | he | ⟨_, he⟩ := step_error_kinds hstep ht <;> rw [he] <;> exact ⟨nofun, nofun⟩

/-! ### The stack overflow -/

theorem hasRoom_eq_false_iff {s : State} :
    s.hasRoom = false ↔ ∃ d, s.config.stackDepth = some d ∧ d ≤ s.stack.length := by
  rw [Bool.eq_false_iff, Ne, hasRoom_iff]
  simp only [not_forall, not_lt, exists_prop]

/-- A step that ends in StackOverflow has run a fetched LOAD on a stack without room, and has pushed nothing. -/
theorem step_stackOverflow {s t : State} {loc : Nat} (hstep : step s = .next t)
    (ht : t.status = .error { error := .stackOverflow, loc := loc }) :
    s.ip < s.plen ∧ (∃ const, fetch s = .ok (.load const, 4)) ∧ s.hasRoom = false ∧ t.stack = s.stack := by
  obtain ⟨hrun, ⟨-, rfl⟩ | ⟨-, e, hf, rfl⟩ | ⟨hip, i, hf, -, hexec⟩⟩ := step_cases hstep
  · cases ht
  · cases ht
    obtain ⟨_, he⟩ | ⟨_, he⟩ := fetch_eq_error hf <;> cases he
  · obtain ⟨⟨const, rfl⟩, hroom, -, hstack⟩ | ⟨-, -, he⟩ | ⟨v, rest, -, he⟩ :=
      (exec_eq_next.1 hexec).error_causes hrun ht
    · exact ⟨hip, ⟨const, hf⟩, hroom, hstack⟩
    · cases he
    · exact absurd rfl he.ne_stack_error.2

theorem step_of_full_load {s : State} {const len : Nat} (hrun : s.status = .running) (hip : s.ip < s.plen)
    (hf : fetch s = .ok (.load const, len)) (hroom : s.hasRoom = false) :
    step s = .next (s.errorHalt .stackOverflow) :=
  (step_of_fetch hrun hip hf).trans (exec_eq_next.2 (.full hroom))

/-- Settles O44: a step that overflows has run a LOAD without room, and a LOAD without room overflows. -/
theorem stackOverflowOnlyFromFullLoad : Obligations.StackOverflowOnlyFromFullLoad := by
  intro s t hrun hstep
  rw [← hasRoom_eq_false_iff]
  refine ⟨⟨fun ⟨loc, ht⟩ => ?_, fun ⟨hip, ⟨const, hf⟩, hroom⟩ => ?_⟩, fun ⟨loc, ht⟩ => ?_⟩
  · obtain ⟨hip, hload, hroom, -⟩ := step_stackOverflow hstep ht
    exact ⟨hip, hload, hroom⟩
  · cases hstep.symm.trans (step_of_full_load hrun hip hf hroom)
    exact ⟨s.ip, rfl⟩
  · obtain ⟨-, -, -, hstack⟩ := step_stackOverflow hstep ht
    exact hstack

end Sys2Proof.Machine
end

section
/-! The start of a run: what each cell of the launched memory holds, which blobs a launch takes, and reset as the
launch of the empty program (R119, R701 to R704). -/

namespace Sys2Proof.Machine

/-! ### The cells of the launched memory -/

/-- In front of a list whose entries all lie past it, an entry decides its own cell and no other. -/
theorem Memory.read_cons_of_wfFrom {a : Nat} {m : Memory} (h : Memory.wfFrom (a + 1) m = true) (v : Byte) (b : Nat) :
    Memory.read (Memory.cons a v m) b = if b = a then v else Memory.read m b :=
  Memory.read_cons a v m b fun hb => Memory.read_of_wfFrom h (Nat.lt_succ_of_le hb)

theorem Memory.cons_append (a : Nat) (v : Byte) (m n : Memory) :
    Memory.cons a v m ++ n = Memory.cons a v (m ++ n) := by
  unfold Memory.cons
  split
  · rfl
  · exact List.cons_append

/-- The fill stands in every cell it was laid in, zeros included (R702). -/
theorem Memory.read_filled (fill : Nat → Byte) {a n k : Nat} (hk : k < n) (hfits : a + n ≤ memSize) :
    Memory.read (Memory.filled fill a n) (a + k) = fill (a + k) := by
  induction n generalizing a k with
  | zero => exact absurd hk (Nat.not_lt_zero k)
  | succ n ih =>
    have hrest := Memory.filled_wfFrom fill (a + 1) n (by omega)
    rw [Memory.filled, Memory.read_cons_of_wfFrom hrest]
    cases k with
    | zero => exact if_pos rfl
    | succ k =>
      rw [if_neg (by omega), show a + (k + 1) = a + 1 + k by omega]
      exact ih (by omega) (by omega)

/-- Bytes laid from `a` on, in front of entries past them: each byte in its cell, and past the bytes what follows. -/
theorem Memory.read_ofBytes_append {a : Nat} {bs : List Byte} {m : Memory} (hfits : a + bs.length ≤ memSize)
    (hm : Memory.wfFrom (a + bs.length) m = true) (k : Nat) :
    Memory.read (Memory.ofBytes a bs ++ m) (a + k) = bs[k]?.getD (Memory.read m (a + k)) := by
  induction bs generalizing a k with
  | nil => rfl
  | cons b bs ih =>
    rw [List.length_cons, Nat.add_comm bs.length, ← Nat.add_assoc] at hfits hm
    have hrest := Memory.ofBytes_append_wfFrom (a + 1) bs m hfits hm
    rw [Memory.ofBytes, Memory.cons_append, Memory.read_cons_of_wfFrom hrest]
    cases k with
    | zero => exact if_pos rfl
    | succ k =>
      rw [if_neg (by omega), List.getElem?_cons_succ, show a + (k + 1) = a + 1 + k by omega]
      exact ih hfits hm k

/-- A launched memory holds the blob's bytes, and the fill in every other cell (R701, R702). -/
theorem Memory.read_image (fill : Nat → Byte) {blob : List Byte} (hfits : blob.length ≤ memSize) {a : Nat}
    (ha : a < memSize) : Memory.read (Memory.image fill blob) a = blob[a]?.getD (fill a) := by
  have hfill : Memory.wfFrom (0 + blob.length) (Memory.filled fill blob.length (memSize - blob.length)) = true := by
    rw [Nat.zero_add]
    exact Memory.filled_wfFrom fill _ _ (by omega)
  have hread := Memory.read_ofBytes_append (by rwa [Nat.zero_add]) hfill a
  rw [Nat.zero_add] at hread
  rw [Memory.image, hread]
  obtain hin | hout := Nat.lt_or_ge a blob.length
  · rw [List.getElem?_eq_getElem hin]
    rfl
  · obtain ⟨k, rfl⟩ := Nat.exists_eq_add_of_le hout
    rw [Memory.read_filled fill (by omega) (by omega)]

/-! ### The launch -/

/-- The host refuses exactly the blobs longer than memory (R704, D12). -/
theorem launch_eq_none {config : Config} {fill : Nat → Byte} {blob : List Byte} :
    State.launch config fill blob = none ↔ memSize < blob.length := by
  rw [Option.eq_none_iff_forall_ne_some, ← Nat.not_le]
  exact ⟨fun h hfits => h _ (launch_eq_some.2 ⟨hfits, rfl⟩), fun h _ hs => h (launch_eq_some.1 hs).1⟩

/-- Settles O20: the blob fits, so the launch answers, and each of its bytes stands in its own cell. -/
theorem launchLoadsTheProgramAtZero : Obligations.LaunchLoadsTheProgramAtZero := by
  intro config fill blob hfits
  refine ⟨_, launch_eq_some.2 ⟨hfits, rfl⟩, rfl, rfl, rfl, rfl, rfl, fun a b hb => ?_⟩
  obtain ⟨hin, -⟩ := List.getElem?_eq_some_iff.1 hb
  rw [Memory.read_image fill hfits (hin.trans_le hfits), hb, Option.getD_some]

/-- Settles O21: past the blob the launched memory holds the fill, and only a blob that does not fit is refused. -/
theorem launchFillsAboveTheProgram : Obligations.LaunchFillsAboveTheProgram := by
  refine ⟨fun config fill blob s h a habove ha => ?_, fun _ _ _ => launch_eq_none⟩
  obtain ⟨hfits, rfl⟩ := launch_eq_some.1 h
  rw [Memory.read_image fill hfits (Nat.lt_succ_of_le ha), List.getElem?_eq_none habove, Option.getD_none]

/-- Settles O22: the launched memory is canonical, and the launch fixes every other field. -/
theorem launchEstablishesInvariant : Obligations.LaunchEstablishesInvariant :=
  fun _ _ _ _ => inv_of_launch

/-! ### Reset -/

/-- Settles O19: the fields of reset, and a memory that lists no cell. -/
theorem resetIsTheFreshStart : Obligations.ResetIsTheFreshStart :=
  ⟨rfl, rfl, rfl, rfl, rfl, rfl, Memory.read_nil⟩

/-- Settles O23: reset is a launch, the one of the empty program. -/
theorem resetSatisfiesInvariant : Obligations.ResetSatisfiesInvariant :=
  inv_of_launch reset_is_the_empty_launch

end Sys2Proof.Machine
end

section
/-! Table words: a word laid out as an instruction's encoding decodes to it, whatever its padding holds, and a word
with an unknown tag to nothing (R11, R312, R316). -/

namespace Sys2Proof

/-- Standalone unpack of LOAD and STORE does not look at the padding, only at its being there (R312, R411). -/
theorem unpackAt_set_padding {s : List Byte} {b1 : Byte} (h1 : s[0]? = some b1)
    (ht : b1.toNat / 32 = 3 ∨ b1.toNat / 32 = 7) (p : Byte) : unpackAt (s.set 3 p) 0 = unpackAt s 0 := by
  obtain ⟨hpadding, -⟩ := paddingIsIgnoredAndPackedZero
  have h1' : (s.set 3 p)[0]? = some b1 := by rw [List.getElem?_set_ne (by decide), h1]
  have hunpack : unpack (byteAt (s.set 3 p) 0) = unpack (byteAt s 0) :=
    hpadding _ _ b1 (byteAt_eq_ok.2 h1') ht fun k hk => by
      rw [byteAt, List.getElem?_set_ne (by omega), byteAt]
  simp only [unpackAt, h1, h1', List.length_set, hunpack]

theorem decodeTableWord_of_encode {nbits w : Nat} {i : Instr} (post : List Byte) (hw : i.wellFormed = true)
    (h : tableBytes nbits w = encode i ++ post) : decodeTableWord nbits w = some i := by
  have hdecode : unpackAt (tableBytes nbits w) 0 = .ok (i, i.width) := h ▸ decodeInvertsEncode i [] post hw
  rw [decodeTableWord, hdecode]

theorem decodeTableWord_of_set_padding {nbits w w' : Nat} {b1 p : Byte} (h1 : (tableBytes nbits w)[0]? = some b1)
    (ht : b1.toNat / 32 = 3 ∨ b1.toNat / 32 = 7) (h : tableBytes nbits w' = (tableBytes nbits w).set 3 p) :
    decodeTableWord nbits w' = decodeTableWord nbits w := by
  rw [decodeTableWord, h, unpackAt_set_padding h1 ht, decodeTableWord]

theorem decodeTableWord_of_unknown_tag {nbits w : Nat} {b1 : Byte} (h1 : (tableBytes nbits w)[0]? = some b1)
    (ht : lengthOfTag (tagOf b1) = none) : decodeTableWord nbits w = none := by
  rw [decodeTableWord, unpackAt_of_unknown_tag h1 ht]

/-- Settles O13: five of the words are laid out as encodings, one differs from the first of them in its padding only,
and the last one's tag is 4. -/
theorem specWordsDecode : Obligations.SpecWordsDecode := by
  have hload : decodeTableWord 32 0x60000800 = some (.load 8) := decodeTableWord_of_encode [0] rfl rfl
  refine ⟨hload, ?read, ?store, ?sqrt, ?padded, ?sqrtHigh, ?unknown⟩
  case read => exact decodeTableWord_of_encode [0, 0, 0, 0] rfl rfl
  case store => exact decodeTableWord_of_encode [0] rfl rfl
  case sqrt => exact decodeTableWord_of_encode [] rfl rfl
  case padded => exact (decodeTableWord_of_set_padding (b1 := 0x60) (p := 0x5A) rfl (.inl rfl) rfl).trans hload
  case sqrtHigh => exact decodeTableWord_of_encode [] rfl rfl
  case unknown => exact decodeTableWord_of_unknown_tag (b1 := 0x80) rfl rfl

end Sys2Proof
end
